-- ==== Sys2Proof/Word.lean ====
section
/-!
DEFINITION. The word types of the GBRT link core and the tag, the datum of its sequence buffer.
Bits are numbered from 0 at the least significant bit and every value is unsigned (00_scope.md R13).
-/

namespace Sys2Proof

/-- A byte: the operand of `SEND` and the width of the transmit shift register (30_encoding.md R82). -/
abbrev Byte := BitVec 8

/-- A command word `cmd[9:0]` of the single format CMD10 (30_encoding.md R80). -/
abbrev CmdWord := BitVec 10

/-- A word of the host read space (10_state.md R40). -/
abbrev Word := BitVec 32

/-- A tag: one of the five symbols (00_scope.md R13, 30_encoding.md R86). The three-bit codes appear at the read
port only; the codes 5, 6 and 7 are no tag (log 7). -/
inductive Tag
  | zero
  | one
  | noise
  | timeout
  | start
  deriving DecidableEq, Repr, Inhabited

end Sys2Proof
end

