-- ==== Sys2Proof/Syntax.lean ====
section
/-!
DEFINITION. The command set GBRT-CMD 1: one constructor per row of the opcode table (30_encoding.md R81).
-/

namespace Sys2Proof

/-- A command. Only `SEND` carries an operand (30_encoding.md R82); `cmd[7:0]` of the other three is ignored, "all
256 values select the same behaviour" (R85), so it is no part of the instruction. -/
inductive Instr
  /-- `SEND value`: transmit one byte (40_send.md R100). -/
  | send (value : Byte)
  /-- `RBIT`: receive and classify one pulse (41_rbit.md R120). -/
  | rbit
  /-- `RSEQ`: assemble a stream of tags (42_rseq.md R140). -/
  | rseq
  /-- `DEC`: reconstruct the integer of the assembled stream (43_dec.md R155). -/
  | dec
  deriving DecidableEq, Repr

end Sys2Proof
end

