-- ==== Sys2Proof/WellFormed.lean ====
section
/-!
DEFINITION. Which instructions are well formed. The spec has no illegal, reserved or hint encoding and every operand
value is legal (30_encoding.md R82, R85), so there is no check that refuses an instruction: the byte's range 0 to 255
is its type. The one range check of the spec, the assembler's on the number written after `SEND` (R89), is made where
text is assembled (Machine/Assembler.lean, `AsmLine.wellFormed`).
-/

namespace Sys2Proof

/-- Well-formedness of an instruction: every one is (30_encoding.md R85). -/
def Instr.wellFormed : Instr → Bool
  | .send _ => true
  | .rbit => true
  | .rseq => true
  | .dec => true

end Sys2Proof
end

