-- ==== Sys2Proof/Decode.lean ====
section
/-!
DEFINITION. The decoder of command words, total on every word (30_encoding.md R80 to R85), and the encoder, written
from the same table (R81, R89).
-/

namespace Sys2Proof

/-- The operation code `cmd[9:8]` (30_encoding.md R80). -/
def cmdOp (w : CmdWord) : BitVec 2 := w.extractLsb' 8 2

/-- The argument `cmd[7:0]` (30_encoding.md R80). -/
def cmdArg (w : CmdWord) : Byte := w.extractLsb' 0 8

/-- The operation code of `SEND` (30_encoding.md R81). -/
def opSend : BitVec 2 := 0b00#2
/-- The operation code of `RBIT` (30_encoding.md R81). -/
def opRbit : BitVec 2 := 0b01#2
/-- The operation code of `RSEQ` (30_encoding.md R81). -/
def opRseq : BitVec 2 := 0b10#2
/-- The operation code of `DEC` (30_encoding.md R81). -/
def opDec : BitVec 2 := 0b11#2

/-- The decoder: one of the four operations by `cmd[9:8]` alone (30_encoding.md R81, R85). -/
def decodeCmd (w : CmdWord) : Instr :=
  if cmdOp w = opSend then .send (cmdArg w)
  else if cmdOp w = opRbit then .rbit
  else if cmdOp w = opRseq then .rseq
  else .dec

/-- Why a number is not a command. -/
inductive DecodeError
  /-- It has a bit above bit 9: the length of every command is 10 bits (30_encoding.md R80, log 8). -/
  | notTenBits
  deriving DecidableEq, Repr

/-- The decoder on any number: a number below 1024 is a command word and decodes, a greater one is refused by name. -/
def decodeNat (w : Nat) : Except DecodeError Instr :=
  if w < 1024 then .ok (decodeCmd (BitVec.ofNat 10 w)) else .error .notTenBits

/-- The host's question: the instruction the decoder reads from the low `nbits` bits of `w`, bit 0 the least
significant (the numbering of the opcode table, which is the spec's own, 00_scope.md R13). -/
def decodeTableWord (nbits w : Nat) : Option Instr :=
  match decodeNat (w % 2 ^ nbits) with
  | .ok i => some i
  | .error _ => none

/-- The operation code of an instruction (30_encoding.md R81). -/
def Instr.opcode : Instr → BitVec 2
  | .send _ => opSend
  | .rbit => opRbit
  | .rseq => opRseq
  | .dec => opDec

/-- The argument field an instruction is encoded with: the byte of `SEND`, 0 where it is ignored (30_encoding.md R89). -/
def Instr.arg : Instr → Byte
  | .send v => v
  | .rbit => 0
  | .rseq => 0
  | .dec => 0

/-- The encoder (30_encoding.md R89): `SEND v` is `0x000 + v`, `RBIT` 0x100, `RSEQ` 0x200, `DEC` 0x300. -/
def encode (i : Instr) : CmdWord := i.opcode ++ i.arg

end Sys2Proof
end

