-- ==== Sys2Proof/Config.lean ====
section
/-!
DEFINITION. The static parameters of the block (00_scope.md R5), the two named configurations (R6), and the free
values: what the outside drives on the input ports in a cycle that no one has fixed, and what an index outside the
sequence buffer would read.
-/

namespace Sys2Proof

/-- The static parameters (00_scope.md R5), all naturals; the times are in cycles of `clk`. -/
structure Config where
  /-- Clock edges per second; informative, no rule reads it. -/
  tickHz : Nat
  /-- Pre-frame settle delay of `SEND`. -/
  tPre : Nat
  /-- Clock half-period of `SEND`. -/
  tHold : Nat
  /-- Post-frame delay of `SEND`. -/
  tPost : Nat
  /-- Shortest valid pulse. -/
  tNoiseLow : Nat
  /-- Longest pulse that is a `ONE`. -/
  tMid : Nat
  /-- Longest valid pulse. -/
  tNoiseHigh : Nat
  /-- Wait-for-rise deadline of one receiveBit. -/
  deadline : Nat
  /-- Capacity of the sequence buffer, counting the start marker and the terminator. -/
  seqDepth : Nat
  deriving DecidableEq, Repr

/-- The constraints of the table of 00_scope.md R5. -/
abbrev Config.Valid (c : Config) : Prop :=
  0 < c.tickHz ∧
  (1 ≤ c.tPre ∧ c.tPre < 2 ^ 31) ∧
  (1 ≤ c.tHold ∧ c.tHold < 2 ^ 31) ∧
  (1 ≤ c.tPost ∧ c.tPost < 2 ^ 31) ∧
  (1 ≤ c.tNoiseLow ∧ c.tNoiseLow ≤ c.tMid ∧ c.tMid ≤ c.tNoiseHigh ∧ c.tNoiseHigh < 2 ^ 31 - 1) ∧
  (1 ≤ c.deadline ∧ c.deadline < 2 ^ 31) ∧
  (2 ≤ c.seqDepth ∧ c.seqDepth ≤ 34)

/-- `CFG_TEST` (00_scope.md R5, R6). -/
def Config.test : Config where
  tickHz := 10
  tPre := 3
  tHold := 1
  tPost := 2
  tNoiseLow := 2
  tMid := 4
  tNoiseHigh := 10
  deadline := 50
  seqDepth := 34

/-- `CFG_DOC_MS` (00_scope.md R5, R6); its three encoder delays are OPEN in the spec and are arguments here. -/
def Config.docMs (tPre tHold tPost : Nat) : Config where
  tickHz := 1000
  tPre := tPre
  tHold := tHold
  tPost := tPost
  tNoiseLow := 200
  tMid := 400
  tNoiseHigh := 1000
  deadline := 5000
  seqDepth := 34

/-- FREE VALUE: the level of `rst` in a cycle whose input no one has fixed (log 2). -/
opaque Config.freeRst : Nat → Bool

/-- FREE VALUE: the level of `cmd_valid` in such a cycle (log 2). -/
opaque Config.freeCmdValid : Nat → Bool

/-- FREE VALUE: the command word on the port in such a cycle (log 2). -/
opaque Config.freeCmd : Nat → CmdWord

/-- FREE VALUE: the sample of `DataIn` in such a cycle; "a fresh Boolean draw every cycle"
(93_implementation_defined.md U6, log 2). -/
opaque Config.freeDin : Nat → Bool

/-- FREE VALUE: the read address in such a cycle (log 2). -/
opaque Config.freeRaddr : Nat → Byte

/-- FREE VALUE: what an index at or above `SEQ_DEPTH` would read. The spec says no such index arises and gives it no
behaviour (20_memory.md R63, 44_sequencing.md R151, log 5). -/
opaque Config.freeTag : Nat → Tag

end Sys2Proof
end

