-- ==== Sys2Proof/Machine/State.lean ====
section
/-!
DEFINITION. The state of the block as plain data: the registers of 10_state.md R22 and nothing else in `Regs`; beside
them in `State` the configuration and the input samples, which the spec passes to the step function as arguments
(00_scope.md R7). Faults and refusals: the block has none (60_exceptions.md R170, R184).
-/

namespace Sys2Proof.Machine

/-- The values of the sequencer state `ST` (10_state.md R24). The codes 9 to 15 are no value of it (log 7). -/
inductive SeqState
  /-- No operation in progress; `cmd_ready = 1`. -/
  | idle
  /-- Pre-frame settle delay. -/
  | txPre
  /-- The bit is on `DataOut`, `ClockOut` still asserted. -/
  | txData
  /-- `ClockOut` deasserted, first hold. -/
  | txLow
  /-- `ClockOut` reasserted, second hold. -/
  | txHigh
  /-- Post-frame delay. -/
  | txPost
  /-- The document's `WaitingForRise`. -/
  | rxWait
  /-- The document's `TimingHighPulse`. -/
  | rxHigh
  /-- Backward scan of the sequence buffer. -/
  | decScan
  deriving DecidableEq, Repr

/-- The sequence buffer, the block's only indexed storage (10_state.md R30, R47): one tag per element, element 0
first. Its canonical form is `Memory.wf` (log 13). -/
abbrev Memory := List Tag

/-- The canonical form of the buffer: exactly `SEQ_DEPTH` elements (10_state.md R30). -/
def Memory.wf (depth : Nat) (m : Memory) : Bool := m.length == depth

/-- The registers of the block: the table of 10_state.md R22, in its order. -/
structure Regs where
  /-- `ST`, the sequencer state (R24). -/
  st : SeqState
  /-- `OP`, the opcode of the command in progress or last accepted (R25). -/
  op : BitVec 2
  /-- `CLOCK_OUT`, the level on pin `ClockOut` (R27). -/
  clockOut : Bool
  /-- `DATA_OUT`, the level on pin `DataOut` (R27). -/
  dataOut : Bool
  /-- `SH`, the transmit shift register (R28). -/
  sh : Byte
  /-- `NBIT`, the bits not yet loaded (R28). -/
  nbit : BitVec 4
  /-- `DLY`, the down-counter of the timed transmit states (R28). -/
  dly : BitVec 32
  /-- `WCNT`, the deasserted samples of the current wait (R29). -/
  wcnt : BitVec 32
  /-- `DCNT`, the measured high duration, saturated (R29). -/
  dcnt : BitVec 32
  /-- `BITRES`, the tag of the last completed receiveBit (R29). -/
  bitres : Tag
  /-- `SEQ`, the sequence buffer (R30). -/
  seq : Memory
  /-- `LEN`, the number of valid elements, counting the start marker (R30). -/
  len : BitVec 6
  /-- `SEQ_CLOSED`, the last valid element is `TIMEOUT` (R26). -/
  seqClosed : Bool
  /-- `SEQ_OVF`, the content lost at least one element (R26). -/
  seqOvf : Bool
  /-- `IDX`, the element the decoder scans next (R31). -/
  idx : BitVec 6
  /-- `ACC`, the accumulator (R31). -/
  acc : BitVec 32
  /-- `WEIGHT`, the positional weight (R31). -/
  weight : BitVec 33
  deriving DecidableEq, Repr

/-- The reset state `S_reset` of the registers (10_state.md R50). -/
def Regs.reset (c : Config) : Regs where
  st := .idle
  op := 0
  clockOut := true
  dataOut := false
  sh := 0
  nbit := 0
  dly := 0
  wcnt := 0
  dcnt := 0
  bitres := .timeout
  seq := (List.replicate c.seqDepth Tag.timeout).set 0 .start
  len := 2
  seqClosed := true
  seqOvf := false
  idx := 0
  acc := 0
  weight := 1

/-- The sample of the input ports at one rising edge: `I_k` (00_scope.md R7, 10_state.md R20). -/
structure Input where
  /-- Synchronous reset, active at 1. -/
  rst : Bool
  /-- The host presents a command. -/
  cmdValid : Bool
  /-- The command word. -/
  cmd : CmdWord
  /-- The sample of pin `DataIn`. -/
  din : Bool
  /-- The address of the read port. -/
  raddr : Byte
  deriving DecidableEq, Repr

/-- The state of the model. `regs` is the spec's state; the other three fields are the model's own. -/
structure State where
  /-- The configuration `CFG`, fixed at elaboration (00_scope.md R5; a field because the step function of the
  interface has no argument for it, log 1). -/
  cfg : Config
  /-- The registers of the block. -/
  regs : Regs
  /-- The input samples already fixed, the current cycle's first (log 2). -/
  inputs : List Input
  /-- The number of the current cycle (00_scope.md R7; log 2). -/
  cycle : Nat
  deriving DecidableEq, Repr

/-- The faults of the machine: none. "The block raises no synchronous exception" and "has no fault" (60_exceptions.md
R170, R184), so no definition raises one. -/
inductive Fault
  deriving DecidableEq, Repr

/-- The refusals of the machine. -/
inductive Refusal
  /-- An instruction without a meaning in this model. Safe. Nothing raises it: every instruction has its meaning. -/
  | notModelled (mnemonic : String)
  deriving DecidableEq, Repr

/-- The machine right after reset: every register as 10_state.md R50 says, in cycle 0 (00_scope.md R7), no input
fixed yet, in the spec's configuration `CFG_TEST` (log 1). -/
def State.reset : State where
  cfg := Config.test
  regs := Regs.reset Config.test
  inputs := []
  cycle := 0

end Sys2Proof.Machine
end

