-- ==== Sys2Proof/Machine/Flags.lean ====
section
/-!
DEFINITION. The three flags (10_state.md R26): `BUSY` is computed, `SEQ_CLOSED` and `SEQ_OVF` are register bits that
only the operation `RSEQ` writes.
-/

namespace Sys2Proof.Machine

/-- `BUSY`: `ST ≠ IDLE`; no register (10_state.md R26). -/
def Regs.busy (r : Regs) : Bool := r.st != .idle

/-- The flags at the acceptance of `RSEQ`: both cleared (42_rseq.md R140). -/
def Regs.clearStreamFlags (r : Regs) : Regs := { r with seqClosed := false, seqOvf := false }

/-- `SEQ_CLOSED` set by the append of a `TIMEOUT` (42_rseq.md R141). -/
def Regs.markClosed (r : Regs) : Regs := { r with seqClosed := true }

/-- `SEQ_OVF` set by a dropped element (42_rseq.md R142). -/
def Regs.markOverflow (r : Regs) : Regs := { r with seqOvf := true }

end Sys2Proof.Machine
end

