-- ==== Sys2Proof/Machine/Operands.lean ====
section
/-!
DEFINITION. The values the rules compute from a register, a parameter or a tag: the next bit of the shift register, a
parameter as a counter value, the class of a pulse width.
-/

namespace Sys2Proof.Machine

/-- `SH[7]`, the next bit to send, most significant first (40_send.md R102). -/
def nextBit (sh : Byte) : Bool := sh.getLsbD 7

/-- `{ SH[6:0], 0b0 }`, the shift register after one bit was taken (40_send.md R102). -/
def shiftOut (sh : Byte) : Byte := sh.extractLsb' 0 7 ++ 0b0#1

/-- A number of cycles as the content of a 32-bit counter (10_state.md R22). The parameters are below 2^31
(00_scope.md R5), so nothing is lost in a valid configuration (log 12). -/
def ticks (n : Nat) : BitVec 32 := BitVec.ofNat 32 n

/-- `classify(d)` (41_rbit.md R123): the tag of a pulse of `d` asserted samples. At `d = T_MID` it is `ONE`
(90_conflicts.md C1). -/
def classify (c : Config) (d : Nat) : Tag :=
  if d > c.tNoiseHigh ∨ d < c.tNoiseLow then .noise
  else if d ≤ c.tMid then .one
  else .zero

/-- The duration counter after one more asserted sample: `min(DCNT + 1, T_NOISE_HIGH + 1)`, computed on naturals and
then narrowed (41_rbit.md R122). -/
def countHigh (c : Config) (dcnt : BitVec 32) : BitVec 32 :=
  ticks (min (dcnt.toNat + 1) (c.tNoiseHigh + 1))

/-- The wait that ends with this deasserted sample is the `DEADLINE`-th: `WCNT + 1 = DEADLINE` (41_rbit.md R121),
computed on naturals. -/
def deadlineReached (c : Config) (wcnt : BitVec 32) : Bool := wcnt.toNat + 1 == c.deadline

/-- There is room for an element that is no terminator: `LEN < SEQ_DEPTH − 1` (42_rseq.md R141). -/
def hasRoom (c : Config) (len : BitVec 6) : Bool := len.toNat < c.seqDepth - 1

end Sys2Proof.Machine
end

