-- ==== Sys2Proof/Machine/Ops.lean ====
section
/-!
DEFINITION. The operations several rules share: access to the sequence buffer, the input sample of the cycle, the end
of a cycle, reset, the acceptance of a command, and the actions `load_bit`, `append` and `deliver`. The block takes no
exception (60_exceptions.md R177), so there is no operation for one: an anomaly is the tag that `deliver` writes or
the flag that `append` sets (R171).
-/

namespace Sys2Proof.Machine

/-! ### The sequence buffer (00_scope.md R14, 44_sequencing.md R151) -/

/-- `MemRead(i, 1)`. An index outside the buffer, which the spec says cannot occur, reads a free value (log 5). -/
def memRead (m : Memory) (i : Nat) : Tag := m.getD i (Config.freeTag i)

/-- `MemWrite(i, 1, t)`. Outside the buffer there is no element to write (log 5). -/
def memWrite (m : Memory) (i : Nat) (t : Tag) : Memory := m.set i t

/-! ### Inputs and cycles (00_scope.md R7) -/

/-- The input of cycle `k` where no one has fixed it: free on every port (log 2). -/
def freeInput (k : Nat) : Input where
  rst := Config.freeRst k
  cmdValid := Config.freeCmdValid k
  cmd := Config.freeCmd k
  din := Config.freeDin k
  raddr := Config.freeRaddr k

/-- The input `n` cycles after the current one. -/
def State.inputAt (s : State) (n : Nat) : Input := s.inputs.getD n (freeInput (s.cycle + n))

/-- The input `I_k` of the current cycle. -/
def State.input (s : State) : Input := s.inputAt 0

/-- The state with other registers. -/
def State.setRegs (s : State) (r : Regs) : State := { s with regs := r }

/-- The end of a cycle: its input is used up and the next cycle begins. -/
def State.advance (s : State) : State := { s with inputs := s.inputs.tail, cycle := s.cycle + 1 }

/-- An edge with `rst = 1`: every register takes its reset value, whatever else is true (70_reset_and_hazards.md R195). -/
def State.resetEdge (s : State) : State := s.setRegs (Regs.reset s.cfg)

/-! ### Acceptance (30_encoding.md R83, R84) -/

/-- The command presented in the current cycle, if the block looks at the command port: only in `IDLE` and only when
`cmd_valid = 1` (30_encoding.md R83). -/
def State.fetch (s : State) : Option Instr :=
  if s.regs.st = .idle ∧ s.input.cmdValid = true then some (decodeCmd s.input.cmd) else none

/-- Acceptance of a command with operation code `op`: in `IDLE`, `OP <- cmd[9:8]` and the writes of the operation's
acceptance rule at the same edge (30_encoding.md R83); while busy the command has no effect (R84). -/
def State.accept (s : State) (op : BitVec 2) (writes : Config → Regs → Regs) : State :=
  if s.regs.st = .idle then s.setRegs (writes s.cfg { s.regs with op := op }) else s

/-! ### Actions -/

/-- One tick of the down-counter: `DLY <- DLY − 1` (40_send.md R101). -/
def countDown (r : Regs) : Regs := { r with dly := r.dly - 1 }

/-- The action `load_bit()` (40_send.md R102). -/
def loadBit (r : Regs) : Regs :=
  { r with dataOut := nextBit r.sh, sh := shiftOut r.sh, nbit := r.nbit - 1, dly := 0, st := .txData }

/-- A receiveBit starts at this edge, with a fresh deadline (41_rbit.md R120, 42_rseq.md R140, R141). -/
def startReceive (r : Regs) : Regs := { r with wcnt := 0, dcnt := 0, st := .rxWait }

/-- The tag `t` becomes element `LEN`, and `LEN <- LEN + 1` at the same edge (42_rseq.md R141). -/
def pushTag (r : Regs) (t : Tag) : Regs :=
  { r with seq := memWrite r.seq r.len.toNat t, len := r.len + 1 }

/-- The action `append(r)` (42_rseq.md R141): a `TIMEOUT` closes the stream; any other tag is stored if there is room
and dropped with `SEQ_OVF` if there is none (R142), and the next receiveBit starts. -/
def append (c : Config) (r : Regs) (t : Tag) : Regs :=
  if t = .timeout then { (pushTag r t).markClosed with st := .idle }
  else if hasRoom c r.len then startReceive (pushTag r t)
  else startReceive r.markOverflow

/-- The action `deliver(r)` (41_rbit.md R124): the "return" of receiveBit. -/
def deliver (c : Config) (r : Regs) (t : Tag) : Regs :=
  if r.op = opRseq then append c { r with bitres := t } t
  else { r with bitres := t, st := .idle }

end Sys2Proof.Machine
end

