-- ==== Sys2Proof/Machine/Dec.lean ====
section
/-!
DEFINITION. `DEC`, the value reconstructor (43_dec.md): the command's meaning at acceptance and the rule of the state
`DEC_SCAN`.
-/

namespace Sys2Proof.Machine

/-- The writes at the acceptance of `DEC` (43_dec.md R155). -/
def acceptDec (_ : Config) (r : Regs) : Regs :=
  { r with acc := 0, weight := 1, idx := r.len - 2, st := .decScan }

/-- `DEC` presented in the current cycle (43_dec.md R155, 30_encoding.md R83, R84). -/
def execDec (s : State) : Host.Outcome State Fault Refusal :=
  .next (s.accept opDec acceptDec)

/-- The accumulator and the weight after the element `e` (43_dec.md R156): a `ONE` adds the weight and doubles it, a
`ZERO` doubles it, any other tag is skipped (R165). -/
def scanElement (r : Regs) (e : Tag) : Regs :=
  if e = .one then { r with acc := r.acc + r.weight.setWidth 32, weight := r.weight <<< 1 }
  else if e = .zero then { r with weight := r.weight <<< 1 }
  else r

/-- `DEC_SCAN`, one element per cycle, backward; the stop test is on the index (43_dec.md R156). -/
def edgeDecScan (_ : Config) (r : Regs) : Regs :=
  if r.idx = 0 then { r with st := .idle }
  else { scanElement r (memRead r.seq r.idx.toNat) with idx := r.idx - 1 }

end Sys2Proof.Machine
end

