-- ==== Sys2Proof/Machine/Rbit.lean ====
section
/-!
DEFINITION. `RBIT`, the inbound pulse classifier (41_rbit.md): the command's meaning at acceptance and the rules of
the two receive states, which `RSEQ` shares.
-/

namespace Sys2Proof.Machine

/-- The writes at the acceptance of `RBIT` (41_rbit.md R120). The sample of the acceptance cycle is not examined. -/
def acceptRbit (_ : Config) (r : Regs) : Regs := startReceive r

/-- `RBIT` presented in the current cycle (41_rbit.md R120, 30_encoding.md R83, R84). -/
def execRbit (s : State) : Host.Outcome State Fault Refusal :=
  .next (s.accept opRbit acceptRbit)

/-- `RX_WAIT`, polling for an asserted sample under the deadline; an asserted sample wins over an expiring deadline
(41_rbit.md R121, 60_exceptions.md R176). -/
def edgeRxWait (c : Config) (r : Regs) (din : Bool) : Regs :=
  if din then { r with dcnt := 1, st := .rxHigh }
  else if deadlineReached c r.wcnt then deliver c { r with wcnt := r.wcnt + 1 } .timeout
  else { r with wcnt := r.wcnt + 1 }

/-- `RX_HIGH`, timing the pulse until a deasserted sample; it has no deadline (41_rbit.md R122, R127). -/
def edgeRxHigh (c : Config) (r : Regs) (din : Bool) : Regs :=
  if din then { r with dcnt := countHigh c r.dcnt }
  else deliver c r (classify c r.dcnt.toNat)

end Sys2Proof.Machine
end

