-- ==== Sys2Proof/Machine/Rseq.lean ====
section
/-!
DEFINITION. `RSEQ`, the stream assembler (42_rseq.md): the command's meaning at acceptance. What follows are the two
receive states of Machine/Rbit.lean, whose results the action `append` (Machine/Ops.lean) stores.
-/

namespace Sys2Proof.Machine

/-- The writes at the acceptance of `RSEQ` (42_rseq.md R140): the buffer is seeded with the start marker, both flags
are cleared, and the first receiveBit starts at this edge. -/
def acceptRseq (_ : Config) (r : Regs) : Regs :=
  startReceive ({ r with seq := memWrite r.seq 0 .start, len := 1 } : Regs).clearStreamFlags

/-- `RSEQ` presented in the current cycle (42_rseq.md R140, 30_encoding.md R83, R84). -/
def execRseq (s : State) : Host.Outcome State Fault Refusal :=
  .next (s.accept opRseq acceptRseq)

end Sys2Proof.Machine
end

