-- ==== Sys2Proof/Machine/Send.lean ====
section
/-!
DEFINITION. `SEND`, the outbound encoder (40_send.md): the command's meaning at acceptance and the rules of the five
transmit states.
-/

namespace Sys2Proof.Machine

/-- The writes at the acceptance of `SEND value` (40_send.md R100). -/
def acceptSend (value : Byte) (c : Config) (r : Regs) : Regs :=
  { r with sh := value, nbit := 8, dly := ticks c.tPre, st := .txPre }

/-- `SEND value` presented in the current cycle (40_send.md R100, 30_encoding.md R83, R84). -/
def execSend (value : Byte) (s : State) : Host.Outcome State Fault Refusal :=
  .next (s.accept opSend (acceptSend value))

/-- `TX_PRE`, the pre-frame settle delay (40_send.md R101). -/
def edgeTxPre (_ : Config) (r : Regs) : Regs :=
  if r.dly = 1 then loadBit r else countDown r

/-- `TX_DATA`, the data set-up cycle, ends by deasserting `ClockOut` (40_send.md R103). -/
def edgeTxData (c : Config) (r : Regs) : Regs :=
  { r with clockOut := false, dly := ticks c.tHold, st := .txLow }

/-- `TX_LOW`, the hold with `ClockOut` deasserted (40_send.md R104). -/
def edgeTxLow (c : Config) (r : Regs) : Regs :=
  if r.dly = 1 then { r with clockOut := true, dly := ticks c.tHold, st := .txHigh } else countDown r

/-- `TX_HIGH`, the hold with `ClockOut` reasserted (40_send.md R105). -/
def edgeTxHigh (c : Config) (r : Regs) : Regs :=
  if r.dly = 1 then
    if r.nbit = 0 then { r with dly := ticks c.tPost, st := .txPost } else loadBit r
  else countDown r

/-- `TX_POST`, the post-frame delay (40_send.md R106). -/
def edgeTxPost (_ : Config) (r : Regs) : Regs :=
  if r.dly = 1 then { r with dly := 0, st := .idle } else countDown r

end Sys2Proof.Machine
end

