-- ==== Sys2Proof/Machine/Sequencer.lean ====
section
/-!
DEFINITION. The sequencer: at an edge without reset and without an accepted command, the rule of the current value of
`ST` is applied, alone (60_exceptions.md R175, 44_sequencing.md R150, R153).
-/

namespace Sys2Proof.Machine

/-- The rule of the state `ST` (44_sequencing.md R153). In `IDLE` nothing changes (30_encoding.md R83). -/
def edgeRegs (c : Config) (r : Regs) (din : Bool) : Regs :=
  match r.st with
  | .idle => r
  | .txPre => edgeTxPre c r
  | .txData => edgeTxData c r
  | .txLow => edgeTxLow c r
  | .txHigh => edgeTxHigh c r
  | .txPost => edgeTxPost c r
  | .rxWait => edgeRxWait c r din
  | .rxHigh => edgeRxHigh c r din
  | .decScan => edgeDecScan c r

/-- The sequencer's own edge: no reset, no command accepted. -/
def State.tick (s : State) : State := s.setRegs (edgeRegs s.cfg s.regs s.input.din)

end Sys2Proof.Machine
end

