-- ==== Sys2Proof/Machine/Dispatch.lean ====
section
/-!
DEFINITION. The meaning of every command: what it does when it is presented at the edge that ends the current cycle,
with `rst = 0` (30_encoding.md R83, R84). One arm per row of the opcode table.
-/

namespace Sys2Proof.Machine

def exec (i : Instr) (s : State) : Host.Outcome State Fault Refusal :=
  match i with
  | .send value => Sys2Proof.Machine.execSend value s
  | .rbit => Sys2Proof.Machine.execRbit s
  | .rseq => Sys2Proof.Machine.execRseq s
  | .dec => Sys2Proof.Machine.execDec s

end Sys2Proof.Machine
end

