-- ==== Sys2Proof/Machine/Step.lean ====
section
/-!
DEFINITION. One step: one rising edge of `clk` (00_scope.md R7). Priority (60_exceptions.md R175): reset first, then
the rule of `ST`, which in `IDLE` looks at the command port.
-/

namespace Sys2Proof.Machine

/-- The end of the cycle after an outcome of `exec`. -/
def endCycle : Host.Outcome State Fault Refusal → Host.Outcome State Fault Refusal
  | .next s => .next s.advance
  | .fault f => .fault f
  | .refused r => .refused r

/-- One step of the block: the edge that ends the current cycle. -/
def step (s : State) : Host.Outcome State Fault Refusal :=
  if s.input.rst then .next s.resetEdge.advance
  else
    match s.fetch with
    | some i => endCycle (exec i s)
    | none => .next s.tick.advance

/-- `s` with the command word `w` (its low `nbits` bits) presented on the command port in the current cycle, `rst = 0`
and the block ready for it, so that the next step accepts exactly that command. The block fetches nothing
(20_memory.md R71): the command port is where its next instruction comes from (log 3). The inputs of later cycles and
every register but `ST` stay. -/
def State.withFetchWord (s : State) (nbits w : Nat) : State :=
  { s with
    regs := { s.regs with st := .idle }
    inputs :=
      { rst := false, cmdValid := true, cmd := BitVec.ofNat 10 (w % 2 ^ nbits), din := false, raddr := 0 }
        :: s.inputs.tail }

/-- `n` steps, ending at the first that answers no next state. -/
def stepN : Nat → State → Host.Outcome State Fault Refusal
  | 0, s => .next s
  | n + 1, s =>
    match step s with
    | .next t => stepN n t
    | .fault f => .fault f
    | .refused r => .refused r

end Sys2Proof.Machine
end

