-- ==== Sys2Proof/Machine/Assembler.lean ====
section
/-!
DEFINITION. The assembler and the disassembler of host programs (30_encoding.md R89) and the pseudo-instruction `RVAL`
(R90). Text is a list of characters. What R89 leaves open (how words of a line are separated, the case of hexadecimal
digits, how the disassembler prints the byte) is log 10.
-/

namespace Sys2Proof.Machine

/-- One line of a host program: a command, or the pseudo-instruction `RVAL` (30_encoding.md R89, R90). -/
inductive AsmLine
  /-- `SEND <byte>`, with the number as written. -/
  | send (value : Nat)
  | rbit
  | rseq
  | dec
  /-- `RVAL`: `RSEQ` then `DEC`. -/
  | rval
  deriving DecidableEq, Repr

/-- `<byte>` is a number 0 to 255 (30_encoding.md R89). -/
def AsmLine.wellFormed : AsmLine → Bool
  | .send value => value ≤ 255
  | .rbit => true
  | .rseq => true
  | .dec => true
  | .rval => true

/-- The commands a line stands for (30_encoding.md R89, R90). -/
def AsmLine.commands : AsmLine → List Instr
  | .send value => [.send (BitVec.ofNat 8 value)]
  | .rbit => [.rbit]
  | .rseq => [.rseq]
  | .dec => [.dec]
  | .rval => [.rseq, .dec]

/-- The words of a program, one line after the other (30_encoding.md R89); none if a line is ill formed. -/
def assemble : List AsmLine → Option (List CmdWord)
  | [] => some []
  | l :: ls => if l.wellFormed then (assemble ls).map (l.commands.map encode ++ ·) else none

/-- The value of a digit, if it is one of the base. -/
def digitValue (base : Nat) (ch : Char) : Option Nat :=
  let n := ch.toNat
  let v := if 48 ≤ n ∧ n ≤ 57 then n - 48
    else if 65 ≤ n ∧ n ≤ 70 then n - 55
    else if 97 ≤ n ∧ n ≤ 102 then n - 87
    else base
  if v < base then some v else none

/-- The digits of a number, most significant first, after those already read. -/
def parseDigits (base : Nat) : Nat → List Char → Option Nat
  | acc, [] => some acc
  | acc, ch :: rest =>
    match digitValue base ch with
    | some v => parseDigits base (base * acc + v) rest
    | none => none

/-- A number in decimal, `0x` hexadecimal or `0b` binary (30_encoding.md R89); at least one digit. -/
def parseNumber : List Char → Option Nat
  | [] => none
  | ['0', 'x'] => none
  | ['0', 'b'] => none
  | '0' :: 'x' :: digits => parseDigits 16 0 digits
  | '0' :: 'b' :: digits => parseDigits 2 0 digits
  | digits => parseDigits 10 0 digits

/-- A `;` starts a comment that runs to the end of the line (30_encoding.md R89). -/
def stripComment (line : List Char) : List Char := line.takeWhile (· ≠ ';')

/-- The words of a line, separated by spaces or tabs; `cur` holds the word being read. -/
def wordsFrom (cur : List Char) : List Char → List (List Char)
  | [] => if cur = [] then [] else [cur]
  | ch :: rest =>
    if ch = ' ' ∨ ch = '\t' then
      if cur = [] then wordsFrom [] rest else cur :: wordsFrom [] rest
    else wordsFrom (cur ++ [ch]) rest

/-- One line of text (30_encoding.md R89): nothing, or one command or pseudo-instruction; none where it is neither. -/
def parseLine (line : List Char) : Option (List AsmLine) :=
  match wordsFrom [] (stripComment line) with
  | [] => some []
  | [w] =>
    if w = ['R', 'B', 'I', 'T'] then some [.rbit]
    else if w = ['R', 'S', 'E', 'Q'] then some [.rseq]
    else if w = ['D', 'E', 'C'] then some [.dec]
    else if w = ['R', 'V', 'A', 'L'] then some [.rval]
    else none
  | [w, n] => if w = ['S', 'E', 'N', 'D'] then (parseNumber n).map (fun v => [AsmLine.send v]) else none
  | _ :: _ :: _ :: _ => none

/-- The lines of a whole program text. -/
def parseProgram : List (List Char) → Option (List AsmLine)
  | [] => some []
  | l :: ls =>
    match parseLine l, parseProgram ls with
    | some p, some ps => some (p ++ ps)
    | _, _ => none

/-- The assembler on text: the command words of a program (30_encoding.md R89). -/
def assembleText (lines : List (List Char)) : Option (List CmdWord) := (parseProgram lines).bind assemble

/-- A hexadecimal digit, upper case. -/
def hexDigit (n : Nat) : Char := Char.ofNat (if n < 10 then 48 + n else 55 + n)

/-- The disassembler (30_encoding.md R89): the mnemonic alone whatever `cmd[7:0]` holds, but for `SEND`, whose byte
is printed as two hexadecimal digits. -/
def disassemble (w : CmdWord) : List Char :=
  match decodeCmd w with
  | .send v => ['S', 'E', 'N', 'D', ' ', '0', 'x', hexDigit (v.toNat / 16), hexDigit (v.toNat % 16)]
  | .rbit => ['R', 'B', 'I', 'T']
  | .rseq => ['R', 'S', 'E', 'Q']
  | .dec => ['D', 'E', 'C']

end Sys2Proof.Machine
end

