-- ==== Sys2Proof/Machine/Driver.lean ====
section
/-!
DEFINITION. The standard host driver (30_encoding.md R91): `rst = 0` always, and the next command of the program in
the first cycle in which the block is ready for it.
-/

namespace Sys2Proof.Machine

/-- The program has ended: the block is idle and no command remains (30_encoding.md R91). -/
def programEnded (p : List CmdWord) (s : State) : Bool := p.isEmpty && (s.regs.st == .idle)

/-- What the driver puts on the input ports in the current cycle (30_encoding.md R91). The read address, of which R91
says nothing and which no register depends on, stays what the outside drives. -/
def driverInput (p : List CmdWord) (s : State) (din : Bool) : Input :=
  match s.regs.st, p with
  | .idle, w :: _ => { rst := false, cmdValid := true, cmd := w, din := din, raddr := s.input.raddr }
  | _, _ => { rst := false, cmdValid := false, cmd := s.input.cmd, din := din, raddr := s.input.raddr }

/-- The commands that remain after the current cycle. -/
def driverRest (p : List CmdWord) (s : State) : List CmdWord := if s.regs.st = .idle then p.tail else p

/-- The state with the input of the current cycle replaced. -/
def State.withInput (s : State) (i : Input) : State := { s with inputs := i :: s.inputs.tail }

/-- The run of a program under an input trace of `DataIn`: it stops where the program has ended or the trace is used
up, and answers the commands that remain and the state. -/
def drive : List CmdWord → List Bool → State → Host.Outcome (List CmdWord × State) Fault Refusal
  | p, [], s => .next (p, s)
  | p, din :: dins, s =>
    if programEnded p s then .next (p, s)
    else
      match step (s.withInput (driverInput p s din)) with
      | .next t => drive (driverRest p s) dins t
      | .fault f => .fault f
      | .refused r => .refused r

end Sys2Proof.Machine
end

