-- ==== Sys2Proof/Machine/ReadPort.lean ====
section
/-!
DEFINITION. The outputs of the block: functions of the state of the cycle and, for the read port only, of `raddr`
(10_state.md R21, R40 to R46). Reading changes nothing.
-/

namespace Sys2Proof.Machine

/-- The code of a tag (30_encoding.md R86). -/
def tagCode : Tag → BitVec 3
  | .zero => 0
  | .one => 1
  | .noise => 2
  | .timeout => 3
  | .start => 4

/-- The code of a sequencer state (10_state.md R24). -/
def stateCode : SeqState → BitVec 4
  | .idle => 0
  | .txPre => 1
  | .txData => 2
  | .txLow => 3
  | .txHigh => 4
  | .txPost => 5
  | .rxWait => 6
  | .rxHigh => 7
  | .decScan => 8

/-- STATUS (10_state.md R41), from bit 31 down to bit 0. -/
def status (r : Regs) : Word :=
  0#18 ++ r.op ++ stateCode r.st ++ 0#3 ++ BitVec.ofBool r.dataOut ++ BitVec.ofBool r.clockOut ++
    BitVec.ofBool r.seqOvf ++ BitVec.ofBool r.seqClosed ++ BitVec.ofBool r.busy

/-- The host read space (10_state.md R40): STATUS, BITRES, DUR, SEQLEN, VALUE, the SEQ window; any other address
reads 0. -/
def readPort (c : Config) (r : Regs) (raddr : Byte) : Word :=
  if raddr = 0x00 then status r
  else if raddr = 0x01 then (tagCode r.bitres).setWidth 32
  else if raddr = 0x02 then r.dcnt
  else if raddr = 0x03 then r.len.setWidth 32
  else if raddr = 0x04 then r.acc
  else if 0x80 ≤ raddr.toNat ∧ raddr.toNat - 0x80 < c.seqDepth then
    (tagCode (memRead r.seq (raddr.toNat - 0x80))).setWidth 32
  else 0

/-- The output ports (10_state.md R20). -/
structure Outputs where
  /-- 1 exactly when `ST = IDLE`. -/
  cmdReady : Bool
  /-- Pin `ClockOut`. -/
  clockOut : Bool
  /-- Pin `DataOut`. -/
  dataOut : Bool
  /-- Read data for the current `raddr`. -/
  rdata : Word
  deriving DecidableEq, Repr

/-- The output ports during the current cycle (10_state.md R21). -/
def State.outputs (s : State) : Outputs where
  cmdReady := s.regs.st == .idle
  clockOut := s.regs.clockOut
  dataOut := s.regs.dataOut
  rdata := readPort s.cfg s.regs s.input.raddr

end Sys2Proof.Machine
end

