-- ==== Sys2Proof/Safety.lean ====
section
/-!
DEFINITION. The terms in which claims about the block are stated: the invariant of 10_state.md R51, premises on the
inputs of a run, the closed forms of the outbound frame, of the inbound stream and of the reconstructed value, and the
frame conditions. Nothing of the machine depends on this file.
-/

namespace Sys2Proof.Machine

/-! ### Premises on the inputs -/

/-- No reset in the current cycle and the `n − 1` cycles after it. -/
abbrev State.NoReset (s : State) (n : Nat) : Prop := ∀ k, k < n → (s.inputAt k).rst = false

/-- In the current cycle the host presents a command word that decodes to `i`, without reset. -/
abbrev State.Presents (s : State) (i : Instr) : Prop :=
  s.input.rst = false ∧ s.input.cmdValid = true ∧ decodeCmd s.input.cmd = i

/-- From `k` cycles after the current one on, the samples of `DataIn` are those of the list. -/
abbrev State.DinFrom (s : State) (k : Nat) (bits : List Bool) : Prop :=
  ∀ j, j < bits.length → bits[j]? = some (s.inputAt (k + j)).din

/-- The block is busy in each of the `n` cycles after the current one. -/
def State.BusyFor (s : State) (n : Nat) : Prop :=
  ∀ k, 1 ≤ k → k ≤ n → ∃ t, stepN k s = .next t ∧ t.regs.busy = true

/-! ### The reconstructed value (43_dec.md R158) -/

/-- A contributing element: `ZERO` or `ONE` (00_scope.md, glossary). -/
def contributes (t : Tag) : Bool := t == .zero || t == .one

/-- `ZERO` is 0 and `ONE` is 1 (43_dec.md R158). -/
def bitOf (t : Tag) : Nat := if t = .one then 1 else 0

/-- The binary number whose digits are the elements, most significant first: `Σ b_j · 2^(c − j)` (43_dec.md R158). -/
def digitsValue : List Tag → Nat
  | [] => 0
  | b :: bs => bitOf b * 2 ^ bs.length + digitsValue bs

/-- `decode` of the elements between the start marker and the terminator: every element that does not contribute is
deleted, the rest are binary digits (43_dec.md R158). -/
def decodeElements (es : List Tag) : Nat := digitsValue (es.filter contributes)

/-- The forward form of `decode` (43_dec.md R158): `v <- 2·v + bit(e)` for every contributing element. -/
def decodeForward (es : List Tag) : Nat :=
  es.foldl (fun v e => if contributes e then 2 * v + bitOf e else v) 0

/-- The elements of the stream between the start marker and the terminator: `SEQ[1 .. LEN−2]`. -/
def Regs.elements (r : Regs) : List Tag := (r.seq.take (r.len.toNat - 1)).drop 1

/-- The elements the scan has already passed: `SEQ[IDX+1 .. LEN−2]` (10_state.md R51 item 12). -/
def Regs.scanned (r : Regs) : List Tag := (r.seq.take (r.len.toNat - 1)).drop (r.idx.toNat + 1)

/-! ### The invariant of every reachable state -/

/-- A tag that a pulse can have: `ZERO`, `ONE` or `NOISE`. -/
def isPulseTag (t : Tag) : Bool := t == .zero || t == .one || t == .noise

/-- The invariant of 10_state.md R51 over a configuration (item 1 is the type of `ST`), with the size of the buffer
(R30). `seq[i]?` is element `i` if the buffer has one. -/
structure Regs.Inv (c : Config) (r : Regs) : Prop where
  /-- The buffer has `SEQ_DEPTH` elements (R30). -/
  seqSize : Memory.wf c.seqDepth r.seq = true
  /-- Item 2. -/
  startMarker : r.seq[0]? = some .start
  /-- Item 3. -/
  lenRange : 1 ≤ r.len.toNat ∧ r.len.toNat ≤ c.seqDepth ∧ (r.seqClosed = false → r.len.toNat ≤ c.seqDepth - 1)
  /-- Item 4. -/
  openIff : r.seqClosed = false ↔ (r.op = opRseq ∧ (r.st = .rxWait ∨ r.st = .rxHigh))
  /-- Item 5, a closed stream. -/
  closedShape : r.seqClosed = true →
    2 ≤ r.len.toNat ∧ r.seq[r.len.toNat - 1]? = some .timeout ∧
      ∀ i, 1 ≤ i → i ≤ r.len.toNat - 2 → ∃ t, r.seq[i]? = some t ∧ isPulseTag t = true
  /-- Item 5, an open stream. -/
  openShape : r.seqClosed = false →
    ∀ i, 1 ≤ i → i ≤ r.len.toNat - 1 → ∃ t, r.seq[i]? = some t ∧ isPulseTag t = true
  /-- Item 6. -/
  clockLow : r.clockOut = false ↔ r.st = .txLow
  /-- Item 7, outside the timed states. -/
  dlyZero : r.st ≠ .txPre → r.st ≠ .txLow → r.st ≠ .txHigh → r.st ≠ .txPost → r.dly = 0
  /-- Item 7, `TX_PRE`. -/
  dlyPre : r.st = .txPre → 1 ≤ r.dly.toNat ∧ r.dly.toNat ≤ c.tPre
  /-- Item 7, `TX_LOW` and `TX_HIGH`. -/
  dlyHold : r.st = .txLow ∨ r.st = .txHigh → 1 ≤ r.dly.toNat ∧ r.dly.toNat ≤ c.tHold
  /-- Item 7, `TX_POST`. -/
  dlyPost : r.st = .txPost → 1 ≤ r.dly.toNat ∧ r.dly.toNat ≤ c.tPost
  /-- Item 8. -/
  nbitRange : r.nbit.toNat ≤ 8 ∧ (r.st = .txPre → r.nbit = 8) ∧
    (r.st = .txData ∨ r.st = .txLow ∨ r.st = .txHigh → r.nbit.toNat ≤ 7) ∧ (r.st = .txPost → r.nbit = 0)
  /-- Item 9. -/
  wcntRange : r.wcnt.toNat ≤ c.deadline ∧ (r.st = .rxWait → r.wcnt.toNat ≤ c.deadline - 1)
  /-- Item 10. -/
  dcntRange : r.dcnt.toNat ≤ c.tNoiseHigh + 1 ∧ (r.st = .rxWait → r.dcnt = 0) ∧ (r.st = .rxHigh → 1 ≤ r.dcnt.toNat)
  /-- Item 11. -/
  bitresTag : r.bitres ≠ .start
  /-- Item 12. -/
  scan : r.st = .decScan →
    r.idx.toNat ≤ r.len.toNat - 2 ∧ r.weight.toNat = 2 ^ (r.scanned.filter contributes).length ∧
      r.acc.toNat < r.weight.toNat ∧ (r.scanned.filter contributes).length ≤ 32
  /-- Item 13. -/
  overflow : r.seqOvf = true → c.seqDepth - 1 ≤ r.len.toNat

/-- The invariant of the whole state: a valid configuration (00_scope.md R5) and the register invariant. -/
def State.Inv (s : State) : Prop := s.cfg.Valid ∧ s.regs.Inv s.cfg

/-! ### The outbound frame in closed form (40_send.md R107, R108) -/

/-- The length of one bit cell, `P = 1 + 2·T_HOLD`. -/
def cellLength (c : Config) : Nat := 1 + 2 * c.tHold

/-- `N_SEND`, the busy cycles of one `SEND` (40_send.md R108). -/
def sendCycles (c : Config) : Nat := c.tPre + 8 * cellLength c + c.tPost

/-- `ST`, `clock_out` and `data_out` in the cycle `k` cycles after the acceptance of `SEND value`, where `before` is
the level of `data_out` in the cycle of acceptance (the table of 40_send.md R107). -/
def frameAt (c : Config) (value : Byte) (before : Bool) (k : Nat) : SeqState × Bool × Bool :=
  if k ≤ c.tPre then (.txPre, true, before)
  else if k ≤ c.tPre + 8 * cellLength c then
    let j := (k - c.tPre - 1) / cellLength c
    let o := (k - c.tPre - 1) % cellLength c
    let b := value.getLsbD (7 - j)
    if o = 0 then (.txData, true, b)
    else if o ≤ c.tHold then (.txLow, false, b)
    else (.txHigh, true, b)
  else if k ≤ sendCycles c then (.txPost, true, value.getLsbD 0)
  else (.idle, true, value.getLsbD 0)

/-! ### The inbound stream (42_rseq.md R146) -/

/-- Pulses of a stream: for each, the deasserted samples before it and its width. -/
abbrev Pulses := List (Nat × Nat)

/-- The samples of the pulses, without what follows the last. -/
def pulseSamples (ps : Pulses) : List Bool :=
  ps.flatMap (fun p => List.replicate p.1 false ++ List.replicate p.2 true)

/-- The conditions of a well-formed stream (42_rseq.md R146): `0 ≤ g_0 ≤ DEADLINE − 1`, every other gap from 1 to
`DEADLINE`, every width at least 1. -/
def WellFormedPulses (deadline : Nat) : Pulses → Prop
  | [] => True
  | p :: ps => p.1 + 1 ≤ deadline ∧ 1 ≤ p.2 ∧ ∀ q ∈ ps, 1 ≤ q.1 ∧ q.1 ≤ deadline ∧ 1 ≤ q.2

/-- The trailing deasserted samples that end a stream: `DEADLINE + 1` after a pulse, `DEADLINE` where there is none
(42_rseq.md R146). -/
def trailer (deadline : Nat) (ps : Pulses) : Nat := if ps = [] then deadline else deadline + 1

/-- The samples of a whole well-formed stream, from the cycle after the acceptance on. -/
def streamSamples (deadline : Nat) (ps : Pulses) : List Bool :=
  pulseSamples ps ++ List.replicate (trailer deadline ps) false

/-- The tags of the pulses that a buffer of the configuration keeps: the earliest `SEQ_DEPTH − 2` (42_rseq.md R142). -/
def keptTags (c : Config) (ps : Pulses) : List Tag := (ps.map (fun p => classify c p.2)).take (c.seqDepth - 2)

/-! ### Frames: the register groups of 10_state.md R27 to R31 -/

/-- The pins are unchanged. -/
def SamePins (r t : Regs) : Prop := t.clockOut = r.clockOut ∧ t.dataOut = r.dataOut

/-- The transmit registers are unchanged. -/
def SameTransmit (r t : Regs) : Prop := t.sh = r.sh ∧ t.nbit = r.nbit ∧ t.dly = r.dly

/-- The receive counters are unchanged. -/
def SameCounters (r t : Regs) : Prop := t.wcnt = r.wcnt ∧ t.dcnt = r.dcnt

/-- The sequence buffer, its length and its flags are unchanged. -/
def SameStream (r t : Regs) : Prop :=
  t.seq = r.seq ∧ t.len = r.len ∧ t.seqClosed = r.seqClosed ∧ t.seqOvf = r.seqOvf

/-- The decoder registers are unchanged. -/
def SameDecoder (r t : Regs) : Prop := t.idx = r.idx ∧ t.acc = r.acc ∧ t.weight = r.weight

/-- The fields of `State` that are not registers are unchanged. -/
def SameSurroundings (s t : State) : Prop := t.cfg = s.cfg ∧ t.inputs = s.inputs ∧ t.cycle = s.cycle

end Sys2Proof.Machine
end

