-- ==== Sys2Proof/Certificates/Slice0/Obligations.lean ====
section
/-!
DEFINITION. What is claimed of the block. A statement over several cycles runs `stepN` from a state whose inputs, fixed
or free, meet premises on `inputAt`; it holds whatever the other inputs are. `s` is the state of cycle `a` of the rule
it cites, `stepN k s` that of cycle `a + k`.
-/

open Sys2Proof Sys2Proof.Machine

/-! ### Reset, the step, acceptance -/

/-- 10_state.md R50: the reset value of every register, in every configuration; `State.reset` and every edge with
`rst = 1` have them; a `DEC` from reset returns 0. (Which configuration `State.reset` has is the model's choice, log
1; nothing here depends on it.) -/
def Obligations.ResetStateValues : Prop :=
  (∀ c : Config, c.Valid →
    let r := Regs.reset c
    r.st = .idle ∧ r.op = 0 ∧ r.clockOut = true ∧ r.dataOut = false ∧ r.sh = 0 ∧ r.nbit = 0 ∧ r.dly = 0 ∧
    r.wcnt = 0 ∧ r.dcnt = 0 ∧ r.bitres = .timeout ∧ r.seq.length = c.seqDepth ∧ r.seq[0]? = some .start ∧
    (∀ i, 1 ≤ i → i < c.seqDepth → r.seq[i]? = some .timeout) ∧ r.len = 2 ∧ r.seqClosed = true ∧
    r.seqOvf = false ∧ r.idx = 0 ∧ r.acc = 0 ∧ r.weight = 1) ∧
  State.reset.regs = Regs.reset State.reset.cfg ∧
  (∀ s : State, s.input.rst = true → ∃ t, step s = .next t ∧ t.regs = Regs.reset s.cfg) ∧
  (∀ s : State, s.cfg.Valid → s.regs = Regs.reset s.cfg → s.Presents .dec → s.NoReset 2 →
    ∃ t, stepN 2 s = .next t ∧ t.regs.st = .idle ∧ t.regs.acc = 0)

/-- 70_reset_and_hazards.md R195: `rst = 1` gives the reset state from every state, whatever the other inputs are; one
cycle is enough and more change nothing; in the first cycle after it the block is ready and a command presented then
is accepted. It is the only way out of the two hangs: without it an asserted sample keeps `RX_HIGH`, and an `RSEQ`
leaves its receive states only by a `TIMEOUT`. -/
def Obligations.ResetOverridesEverything : Prop :=
  (∀ s : State, s.input.rst = true →
    step s = .next { cfg := s.cfg, regs := Regs.reset s.cfg, inputs := s.inputs.tail, cycle := s.cycle + 1 }) ∧
  (∀ (n : Nat) (s : State), (∀ k, k ≤ n → (s.inputAt k).rst = true) →
    ∃ t, stepN (n + 1) s = .next t ∧ t.regs = Regs.reset s.cfg ∧ t.outputs.cmdReady = true ∧
      ∀ i, t.Presents i → ∃ u, exec i t = .next u ∧ step t = .next u.advance ∧ u.regs.st ≠ .idle ∧
        u.regs.op = i.opcode) ∧
  (∀ s t : State, s.input.rst = false → step s = .next t →
    (s.regs.st = .rxHigh → s.input.din = true → t.regs.st = .rxHigh) ∧
    (s.regs.op = opRseq → s.regs.st = .rxWait ∨ s.regs.st = .rxHigh →
      t.regs.st = .rxWait ∨ t.regs.st = .rxHigh ∨ (t.regs.st = .idle ∧ t.regs.bitres = .timeout)))

/-- A step runs the decoded command: in `IDLE`, without reset, a presented word that decodes to `i` makes the step
`exec i`, and the cycle ends (its input is used up, the cycle number goes up by one). -/
def Obligations.StepRunsPresentedCommand : Prop :=
  ∀ (s : State) (i : Instr), i.wellFormed = true → s.regs.st = .idle → s.Presents i →
    ∃ t, exec i s = .next t ∧
      step s = .next { cfg := t.cfg, regs := t.regs, inputs := t.inputs.tail, cycle := t.cycle + 1 }

/-- Every step answers a next state, which keeps the configuration and uses up one input: `step` is total, with no
fault and no refusal (00_scope.md R7, 60_exceptions.md R184). -/
def Obligations.StepAlwaysAnswers : Prop :=
  ∀ s : State, ∃ t, step s = .next t ∧ t.cfg = s.cfg ∧ t.inputs = s.inputs.tail ∧ t.cycle = s.cycle + 1

/-- Acceptance (30_encoding.md R83): in `IDLE` a presented command sets `OP` to `cmd[9:8]` and leaves `IDLE` at the
same edge; without one nothing changes; under reset it is not accepted. -/
def Obligations.AcceptanceInIdle : Prop :=
  ∀ s : State, s.regs.st = .idle →
    (s.input.rst = false → s.input.cmdValid = true →
      ∃ t, exec (decodeCmd s.input.cmd) s = .next t ∧ step s = .next t.advance ∧
        t.regs.op = cmdOp s.input.cmd ∧ t.regs.busy = true) ∧
    (s.input.rst = false → s.input.cmdValid = false → step s = .next s.advance) ∧
    (s.input.rst = true → step s = .next s.resetEdge.advance)

/-- Acceptance of `SEND value` (40_send.md R100): the five writes, and no other register changes. -/
def Obligations.SendAccepted : Prop :=
  ∀ (s : State) (value : Byte), s.regs.st = .idle →
    exec (.send value) s = .next { s with regs :=
      { s.regs with op := 0b00#2, sh := value, nbit := 8, dly := BitVec.ofNat 32 s.cfg.tPre, st := .txPre } }

/-- Acceptance of `RBIT` (41_rbit.md R120): the four writes, and no other register changes; `din` is not examined. -/
def Obligations.RbitAccepted : Prop :=
  ∀ s : State, s.regs.st = .idle →
    exec .rbit s = .next { s with regs := { s.regs with op := 0b01#2, wcnt := 0, dcnt := 0, st := .rxWait } }

/-- Acceptance of `RSEQ` (42_rseq.md R140): the eight writes; of the buffer only element 0 changes; no other register
changes. -/
def Obligations.RseqAccepted : Prop :=
  ∀ s : State, s.regs.st = .idle →
    ∃ t, exec .rseq s = .next t ∧
      t = { s with regs := { s.regs with
        op := 0b10#2, seq := t.regs.seq, len := 1, seqClosed := false, seqOvf := false, wcnt := 0, dcnt := 0,
        st := .rxWait } } ∧
      t.regs.seq.length = s.regs.seq.length ∧
      (0 < s.regs.seq.length → t.regs.seq[0]? = some .start) ∧
      (∀ i, i ≠ 0 → t.regs.seq[i]? = s.regs.seq[i]?)

/-- Acceptance of `DEC` (43_dec.md R155): the five writes, and no other register changes; where `LEN ≥ 2`, which the
invariant gives in `IDLE`, `LEN − 2` does not underflow and is the index of the element before the terminator. -/
def Obligations.DecAccepted : Prop :=
  ∀ s : State, s.regs.st = .idle →
    ∃ t, exec .dec s = .next t ∧
      t = { s with regs := { s.regs with
        op := 0b11#2, acc := 0, weight := 1, idx := t.regs.idx, st := .decScan } } ∧
      (2 ≤ s.regs.len.toNat → t.regs.idx.toNat = s.regs.len.toNat - 2) ∧
      (s.Inv → 2 ≤ s.regs.len.toNat)

/-- 30_encoding.md R84: while busy the command port is not examined: no command word and no `cmd_valid` changes what
the step does, and `exec` of any command has no effect; a host that holds a command until `cmd_ready` gets it accepted
at the end of that cycle. -/
def Obligations.BusyIgnoresCommand : Prop :=
  (∀ (s : State) (i : Input) (v : Bool) (w : CmdWord), s.regs.busy = true →
    step (s.withInput { i with cmdValid := v, cmd := w }) = step (s.withInput i)) ∧
  (∀ (s : State) (i : Instr), s.regs.busy = true → exec i s = .next s) ∧
  (∀ (n : Nat) (s t : State) (w : CmdWord), s.NoReset (n + 1) →
    (∀ k, k ≤ n → (s.inputAt k).cmdValid = true ∧ (s.inputAt k).cmd = w) →
    stepN n s = .next t → t.outputs.cmdReady = true →
    ∃ u, exec (decodeCmd w) t = .next u ∧ step t = .next u.advance)

/-- What no command changes when it is presented (30_encoding.md R83, 40_send.md R100, 41_rbit.md R120, 42_rseq.md
R140, 43_dec.md R155), in every state, busy or not; every element of the buffer but element 0 under `RSEQ`, and all of
it under the other three, reads as before. -/
def Obligations.CommandFrames : Prop :=
  ∀ (i : Instr) (s t : State), exec i s = .next t →
    SameSurroundings s t ∧ SamePins s.regs t.regs ∧ t.regs.bitres = s.regs.bitres ∧
    (∀ j, j ≠ 0 ∨ i ≠ .rseq → memRead t.regs.seq j = memRead s.regs.seq j) ∧
    (match i with
     | .send _ => SameCounters s.regs t.regs ∧ SameStream s.regs t.regs ∧ SameDecoder s.regs t.regs
     | .rbit => SameTransmit s.regs t.regs ∧ SameStream s.regs t.regs ∧ SameDecoder s.regs t.regs
     | .rseq => SameTransmit s.regs t.regs ∧ SameDecoder s.regs t.regs
     | .dec => SameTransmit s.regs t.regs ∧ SameCounters s.regs t.regs ∧ SameStream s.regs t.regs)

/-- At every edge exactly one rule applies, and an input that it does not look at has no effect (60_exceptions.md
R175): the command port matters only in `IDLE` and without reset, `DataIn` only in the two receive states and without
reset, the read address never. -/
def Obligations.OnlyExaminedInputsMatter : Prop :=
  ∀ (s : State) (i j : Input), i.rst = j.rst →
    (s.regs.st = .idle → i.rst = false → i.cmdValid = j.cmdValid ∧ (i.cmdValid = true → i.cmd = j.cmd)) →
    (s.regs.st = .rxWait ∨ s.regs.st = .rxHigh → i.rst = false → i.din = j.din) →
    step (s.withInput i) = step (s.withInput j)

/-! ### Encoding -/

/-- Decoding an encoded command gives it back, for every command and every byte of `SEND`; encoding a decoded word
gives the word with the ignored field 0, so the word itself for every `SEND` (30_encoding.md R81, R85, R89). -/
def Obligations.DecodeEncodeAgree : Prop :=
  (∀ i : Instr, i.wellFormed = true → decodeCmd (encode i) = i) ∧
  (∀ w : CmdWord, encode (decodeCmd w) = if cmdOp w = 0b00#2 then w else w &&& 0x300#10)

/-- The match and mask of the table (30_encoding.md R81): every word decodes, by `cmd[9:8]` alone; `cmd[7:0]` is the
byte of `SEND` and ignored by the others (R82, R85). -/
def Obligations.DecodeByOpcodeAlone : Prop :=
  ∀ w : CmdWord,
    (w &&& 0x300#10 = 0x000#10 ↔ ∃ v, decodeCmd w = .send v) ∧
    (w &&& 0x300#10 = 0x100#10 ↔ decodeCmd w = .rbit) ∧
    (w &&& 0x300#10 = 0x200#10 ↔ decodeCmd w = .rseq) ∧
    (w &&& 0x300#10 = 0x300#10 ↔ decodeCmd w = .dec) ∧
    (∀ v, decodeCmd w = .send v → v.toNat = w.toNat)

/-- Words written out from the table of 30_encoding.md R80, R81 and the vectors V-ENC-1 to V-ENC-9 decode to the
commands they stand for. -/
def Obligations.DecodeWrittenWords : Prop :=
  decodeCmd 0b0000000000#10 = .send 0x00 ∧ decodeCmd 0b0010100101#10 = .send 0xA5 ∧
  decodeCmd 0b0011111111#10 = .send 0xFF ∧ decodeCmd 0b0100000000#10 = .rbit ∧
  decodeCmd 0b0111111111#10 = .rbit ∧ decodeCmd 0b1000000000#10 = .rseq ∧ decodeCmd 0b1010101011#10 = .rseq ∧
  decodeCmd 0b1100000000#10 = .dec ∧ decodeCmd 0b1111111111#10 = .dec

/-- The assembler (30_encoding.md R89, R90): `SEND v` is `0x000 + v` for `v ≤ 255` and refused above, the others are
0x100, 0x200, 0x300, and `RVAL` is the two words 0x200, 0x300. -/
def Obligations.AssemblerWords : Prop :=
  (∀ v : Nat, v ≤ 255 → assemble [.send v] = some [BitVec.ofNat 10 v]) ∧
  (∀ v : Nat, 255 < v → assemble [.send v] = none) ∧
  assemble [.rbit] = some [0x100#10] ∧ assemble [.rseq] = some [0x200#10] ∧ assemble [.dec] = some [0x300#10] ∧
  assemble [.rval] = some [0x200#10, 0x300#10] ∧
  (∀ (ls ms : List AsmLine) (us vs : List CmdWord), assemble ls = some us → assemble ms = some vs →
    assemble (ls ++ ms) = some (us ++ vs))

/-! ### Transmit -/

/-- `TX_PRE` and the action `load_bit` (40_send.md R101, R102): the last cycle of the delay puts bit 7 of the shift
register on `DataOut`, shifts it, counts the bit and enters `TX_DATA`; every other cycle only counts down. -/
def Obligations.TxPreEdge : Prop :=
  ∀ s : State, s.regs.st = .txPre → s.input.rst = false →
    ∃ t, step s = .next t ∧
      (s.regs.dly = 1 →
        t.regs = { s.regs with
          dataOut := s.regs.sh.getLsbD 7, sh := t.regs.sh, nbit := s.regs.nbit - 1, dly := 0, st := .txData } ∧
        t.regs.sh.toNat = 2 * s.regs.sh.toNat % 256) ∧
      (s.regs.dly ≠ 1 → t.regs = { s.regs with dly := s.regs.dly - 1 })

/-- 40_send.md R103: the one cycle of `TX_DATA` ends with `ClockOut` deasserted, `DLY` at `T_HOLD` and `TX_LOW`,
nothing else changing; in it `ClockOut` is still asserted, and `DataOut` has the level that was `SH[7]` in the cycle
before. -/
def Obligations.TxDataEdge : Prop :=
  (∀ s : State, s.regs.st = .txData → s.input.rst = false →
    ∃ t, step s = .next t ∧
      t.regs = { s.regs with clockOut := false, dly := BitVec.ofNat 32 s.cfg.tHold, st := .txLow }) ∧
  (∀ s t : State, s.Inv → s.regs.st ≠ .txData → step s = .next t → t.regs.st = .txData →
    t.regs.clockOut = true ∧ t.regs.dataOut = s.regs.sh.getLsbD 7)

/-- `TX_LOW`, `TX_HIGH` and `TX_POST` (40_send.md R104 to R106), every register. -/
def Obligations.TxHoldEdges : Prop :=
  ∀ s : State, s.input.rst = false →
    ∃ t, step s = .next t ∧
      (s.regs.st = .txLow →
        t.regs = if s.regs.dly = 1
          then { s.regs with clockOut := true, dly := BitVec.ofNat 32 s.cfg.tHold, st := .txHigh }
          else { s.regs with dly := s.regs.dly - 1 }) ∧
      (s.regs.st = .txHigh →
        t.regs = if s.regs.dly = 1 then
            if s.regs.nbit = 0 then { s.regs with dly := BitVec.ofNat 32 s.cfg.tPost, st := .txPost }
            else { s.regs with
              dataOut := s.regs.sh.getLsbD 7, sh := s.regs.sh <<< 1, nbit := s.regs.nbit - 1, dly := 0,
              st := .txData }
          else { s.regs with dly := s.regs.dly - 1 }) ∧
      (s.regs.st = .txPost →
        t.regs = if s.regs.dly = 1 then { s.regs with dly := 0, st := .idle }
          else { s.regs with dly := s.regs.dly - 1 })

/-- The outbound frame (40_send.md R107): in every cycle from the acceptance of `SEND value` to the return to `IDLE`,
the sequencer state and the two output pins are those of the closed form, whatever the other inputs are. -/
def Obligations.SendWaveform : Prop :=
  ∀ (s : State) (value : Byte), s.Inv → s.regs.st = .idle → s.Presents (.send value) →
    s.NoReset (sendCycles s.cfg + 1) →
    ∀ k, 1 ≤ k → k ≤ sendCycles s.cfg + 1 →
      ∃ t, stepN k s = .next t ∧
        (t.regs.st, t.regs.clockOut, t.regs.dataOut) = frameAt s.cfg value s.regs.dataOut k

/-- A `SEND` is busy for exactly `N_SEND` cycles (40_send.md R108) and ends with the registers of R109: `DataOut` at
bit 0 of the byte, the transmit registers 0, and every other register as it was at acceptance. -/
def Obligations.SendCompletes : Prop :=
  ∀ (s : State) (value : Byte), s.Inv → s.regs.st = .idle → s.Presents (.send value) →
    s.NoReset (sendCycles s.cfg + 1) →
    s.BusyFor (sendCycles s.cfg) ∧
    ∃ t, stepN (sendCycles s.cfg + 1) s = .next t ∧
      t.regs = { s.regs with
        op := 0b00#2, clockOut := true, dataOut := value.getLsbD 0, sh := 0, nbit := 0, dly := 0, st := .idle }

/-! ### Receive -/

/-- `RX_WAIT` (41_rbit.md R121) before and at an asserted sample: a deasserted sample before the deadline only counts;
an asserted one starts the pulse with `DCNT = 1`. -/
def Obligations.RxWaitEdge : Prop :=
  ∀ s : State, s.regs.st = .rxWait → s.input.rst = false →
    ∃ t, step s = .next t ∧
      (s.input.din = true → t.regs = { s.regs with dcnt := 1, st := .rxHigh }) ∧
      (s.input.din = false → s.regs.wcnt.toNat + 1 ≠ s.cfg.deadline →
        t.regs = { s.regs with wcnt := s.regs.wcnt + 1 }) ∧
      (s.input.din = false → s.regs.wcnt.toNat + 1 = s.cfg.deadline →
        t.regs.bitres = .timeout ∧ t.regs.st = .idle ∧ t.regs.wcnt = s.regs.wcnt + 1 ∧ t.regs.dcnt = s.regs.dcnt)

/-- 60_exceptions.md R176: the asserted sample wins over the expiring deadline. From the start of a receiveBit, an
asserted sample at any of the `DEADLINE` positions, the last one included, is taken and no `TIMEOUT` is delivered;
only `DEADLINE` deasserted samples deliver it. -/
def Obligations.AssertedSampleWins : Prop :=
  ∀ s : State, s.cfg.Valid → s.regs.st = .rxWait → s.regs.wcnt = 0 →
    (∀ j, j < s.cfg.deadline → s.NoReset (j + 1) → s.DinFrom 0 (List.replicate j false ++ [true]) →
      ∃ t, stepN (j + 1) s = .next t ∧ t.regs = { s.regs with wcnt := BitVec.ofNat 32 j, dcnt := 1, st := .rxHigh }) ∧
    (s.NoReset s.cfg.deadline → s.DinFrom 0 (List.replicate s.cfg.deadline false) →
      (∀ j t, j < s.cfg.deadline → stepN j s = .next t → t.regs.st = .rxWait ∧ t.regs.bitres = s.regs.bitres) ∧
      ∃ t, stepN s.cfg.deadline s = .next t ∧ t.regs.st = .idle ∧ t.regs.bitres = .timeout)

/-- `RX_HIGH` (41_rbit.md R122): an asserted sample counts, up to `T_NOISE_HIGH + 1`; a deasserted one delivers the
class of the count. -/
def Obligations.RxHighEdge : Prop :=
  ∀ s : State, s.cfg.Valid → s.regs.st = .rxHigh → s.input.rst = false →
    ∃ t, step s = .next t ∧
      (s.input.din = true →
        t.regs = { s.regs with dcnt := t.regs.dcnt } ∧
        t.regs.dcnt.toNat = min (s.regs.dcnt.toNat + 1) (s.cfg.tNoiseHigh + 1)) ∧
      (s.input.din = false → t.regs.bitres = classify s.cfg s.regs.dcnt.toNat ∧ t.regs.st ≠ .rxHigh)

/-- 41_rbit.md R123: the three cases of `classify`, disjoint and covering every duration; `ONE` at exactly `T_MID`;
no `ZERO` where `T_MID = T_NOISE_HIGH`; the values of the example. -/
def Obligations.ClassifyCases : Prop :=
  (∀ c : Config, c.Valid → ∀ d : Nat,
    (classify c d = .noise ↔ (d > c.tNoiseHigh ∨ d < c.tNoiseLow)) ∧
    (classify c d = .one ↔ (c.tNoiseLow ≤ d ∧ d ≤ c.tMid)) ∧
    (classify c d = .zero ↔ (c.tMid < d ∧ d ≤ c.tNoiseHigh)) ∧
    (classify c d = .noise ∨ classify c d = .one ∨ classify c d = .zero) ∧
    classify c c.tMid = .one ∧ (c.tMid = c.tNoiseHigh → classify c d ≠ .zero)) ∧
  (List.range 13).map (classify Config.test) =
    [.noise, .noise, .one, .one, .one, .zero, .zero, .zero, .zero, .zero, .zero, .noise, .noise]

/-- The boundary values of `classify` in every configuration (the table of 41_rbit.md R128). -/
def Obligations.ClassifyBoundaries : Prop :=
  ∀ c : Config, c.Valid →
    classify c 0 = .noise ∧ classify c (c.tNoiseLow - 1) = .noise ∧ classify c c.tNoiseLow = .one ∧
    classify c c.tMid = .one ∧ classify c (c.tMid + 1) = (if c.tMid + 1 ≤ c.tNoiseHigh then .zero else .noise) ∧
    classify c c.tNoiseHigh = (if c.tMid < c.tNoiseHigh then .zero else .one) ∧
    classify c (c.tNoiseHigh + 1) = .noise

/-- An `RBIT` on a silent line (41_rbit.md R125, R129): busy for exactly `DEADLINE` cycles, then `TIMEOUT` with
`DUR = 0`; no register but the five named changes. -/
def Obligations.RbitTimesOut : Prop :=
  ∀ s : State, s.cfg.Valid → s.regs.st = .idle → s.Presents .rbit → s.NoReset (s.cfg.deadline + 1) →
    s.DinFrom 1 (List.replicate s.cfg.deadline false) →
    s.BusyFor s.cfg.deadline ∧
    ∃ t, stepN (s.cfg.deadline + 1) s = .next t ∧
      t.regs = { s.regs with
        op := 0b01#2, wcnt := BitVec.ofNat 32 s.cfg.deadline, dcnt := 0, bitres := .timeout, st := .idle }

/-- An `RBIT` that sees `g` deasserted samples and then a pulse of `d` asserted ones (41_rbit.md R125, R129): busy for
exactly `g + d + 1` cycles, then the class of `d` and the duration saturated at `T_NOISE_HIGH + 1`; no register but
the five named changes. `g = 0` is a line already asserted at the first sample (R126). -/
def Obligations.RbitMeasuresPulse : Prop :=
  ∀ (s : State) (g d : Nat), s.cfg.Valid → s.regs.st = .idle → s.Presents .rbit → g + 1 ≤ s.cfg.deadline → 1 ≤ d →
    s.NoReset (g + d + 2) → s.DinFrom 1 (List.replicate g false ++ List.replicate d true ++ [false]) →
    s.BusyFor (g + d + 1) ∧
    ∃ t, stepN (g + d + 2) s = .next t ∧
      t.regs = { s.regs with
        op := 0b01#2, wcnt := BitVec.ofNat 32 g, dcnt := BitVec.ofNat 32 (min d (s.cfg.tNoiseHigh + 1)),
        bitres := classify s.cfg d, st := .idle }

/-- The hang (41_rbit.md R127): while `DataIn` stays asserted the block stays in `RX_HIGH`, for any number of cycles
and whatever the host presents, only the saturated count moving; `rst` leaves it. -/
def Obligations.HighLineHangs : Prop :=
  ∀ (s : State) (n : Nat), s.Inv → s.regs.st = .rxHigh → s.NoReset n → s.DinFrom 0 (List.replicate n true) →
    ∃ t, stepN n s = .next t ∧
      t.regs = { s.regs with dcnt := BitVec.ofNat 32 (min (s.regs.dcnt.toNat + n) (s.cfg.tNoiseHigh + 1)) } ∧
      t.regs.busy = true ∧
      ((s.inputAt n).rst = true → ∃ u, stepN (n + 1) s = .next u ∧ u.regs = Regs.reset s.cfg)

/-- The delivery of a pulse inside `RSEQ` (42_rseq.md R141, R142): the tag goes to element `LEN` if there is room and
is dropped with `SEQ_OVF` set if there is none; every other element reads as before; the next receiveBit starts with
both counters 0. -/
def Obligations.RseqStoresPulse : Prop :=
  ∀ s : State, s.Inv → s.regs.st = .rxHigh → s.regs.op = opRseq → s.input.rst = false → s.input.din = false →
    let tag := classify s.cfg s.regs.dcnt.toNat
    ∃ t, step s = .next t ∧
      t.regs = { s.regs with
        wcnt := 0, dcnt := 0, bitres := tag, seq := t.regs.seq, len := t.regs.len, seqOvf := t.regs.seqOvf,
        st := .rxWait } ∧
      (∀ a, a ≠ s.regs.len.toNat → memRead t.regs.seq a = memRead s.regs.seq a) ∧
      (s.regs.len.toNat < s.cfg.seqDepth - 1 →
        memRead t.regs.seq s.regs.len.toNat = tag ∧ t.regs.len.toNat = s.regs.len.toNat + 1 ∧
        t.regs.seqOvf = s.regs.seqOvf) ∧
      (¬ s.regs.len.toNat < s.cfg.seqDepth - 1 →
        t.regs.seq = s.regs.seq ∧ t.regs.len = s.regs.len ∧ t.regs.seqOvf = true)

/-- An `RSEQ` ends at an edge exactly when its receiveBit delivers `TIMEOUT` there (42_rseq.md R141, R145), and then
the stream has the shape of R143: start marker, pulse tags, terminator, closed, with `LEN` from 2 to `SEQ_DEPTH`. -/
def Obligations.RseqEndsByTimeout : Prop :=
  ∀ s t : State, s.Inv → (s.regs.st = .rxWait ∨ s.regs.st = .rxHigh) → s.regs.op = opRseq → s.input.rst = false →
    step s = .next t →
    (t.regs.st = .idle ↔
      (s.regs.st = .rxWait ∧ s.input.din = false ∧ s.regs.wcnt.toNat + 1 = s.cfg.deadline)) ∧
    (t.regs.st = .idle →
      t.regs.seq[0]? = some .start ∧ t.regs.seq[t.regs.len.toNat - 1]? = some .timeout ∧
      (∀ i, 1 ≤ i → i ≤ t.regs.len.toNat - 2 → ∃ e, t.regs.seq[i]? = some e ∧ isPulseTag e = true) ∧
      2 ≤ t.regs.len.toNat ∧ t.regs.len.toNat ≤ s.cfg.seqDepth ∧ t.regs.seqClosed = true ∧
      t.regs.bitres = .timeout ∧ t.regs.dcnt = 0 ∧ t.regs.wcnt.toNat = s.cfg.deadline)

/-- 42_rseq.md R144: an `RSEQ` whose first receiveBit times out leaves `[START, TIMEOUT]` and `LEN = 2`, which the host
reads in SEQLEN, after exactly `DEADLINE` busy cycles. -/
def Obligations.RseqOnSilentLine : Prop :=
  ∀ s : State, s.cfg.Valid → Memory.wf s.cfg.seqDepth s.regs.seq = true → s.regs.st = .idle → s.Presents .rseq →
    s.NoReset (s.cfg.deadline + 1) → s.DinFrom 1 (List.replicate s.cfg.deadline false) →
    s.BusyFor s.cfg.deadline ∧
    ∃ t, stepN (s.cfg.deadline + 1) s = .next t ∧ t.regs.st = .idle ∧ t.regs.bitres = .timeout ∧
      t.regs.seq.take t.regs.len.toNat = [.start, .timeout] ∧ t.regs.len = 2 ∧
      readPort t.cfg t.regs 0x03 = 2

/-- What `RSEQ` makes of a well-formed stream of any number of pulses (42_rseq.md R146, R142): after the last trailing
sample it is `IDLE`, busy until then; the buffer holds the start marker, the classes of the earliest `SEQ_DEPTH − 2`
pulses in time order and the terminator; `SEQ_OVF` tells whether a pulse was dropped; elements above are as before;
pins, transmit and decoder registers are unchanged. -/
def Obligations.RseqAssemblesStream : Prop :=
  ∀ (s : State) (ps : Pulses), s.cfg.Valid → Memory.wf s.cfg.seqDepth s.regs.seq = true → s.regs.st = .idle →
    s.Presents .rseq → WellFormedPulses s.cfg.deadline ps →
    s.NoReset ((streamSamples s.cfg.deadline ps).length + 1) → s.DinFrom 1 (streamSamples s.cfg.deadline ps) →
    s.BusyFor (streamSamples s.cfg.deadline ps).length ∧
    ∃ t, stepN ((streamSamples s.cfg.deadline ps).length + 1) s = .next t ∧
      t.regs.seq.take t.regs.len.toNat = .start :: (keptTags s.cfg ps ++ [.timeout]) ∧
      t.regs.len.toNat = min ps.length (s.cfg.seqDepth - 2) + 2 ∧
      (∀ i, t.regs.len.toNat ≤ i → t.regs.seq[i]? = s.regs.seq[i]?) ∧
      t.regs = { s.regs with
        op := 0b10#2, wcnt := BitVec.ofNat 32 s.cfg.deadline, dcnt := 0, bitres := .timeout, seq := t.regs.seq,
        len := t.regs.len, seqClosed := true, seqOvf := decide (s.cfg.seqDepth - 2 < ps.length), st := .idle }

/-- The endless stream (42_rseq.md R145): however many pulses come, each within `DEADLINE` samples of the last, the
`RSEQ` is busy in every cycle up to the sample that ends the last pulse and waits for the next; once the buffer is
full `SEQ_OVF = 1`. -/
def Obligations.EndlessStreamNeverEnds : Prop :=
  ∀ (s : State) (ps : Pulses), s.cfg.Valid → Memory.wf s.cfg.seqDepth s.regs.seq = true → s.regs.st = .idle →
    s.Presents .rseq → ps ≠ [] → WellFormedPulses s.cfg.deadline ps →
    s.NoReset ((pulseSamples ps).length + 2) → s.DinFrom 1 (pulseSamples ps ++ [false]) →
    s.BusyFor ((pulseSamples ps).length + 2) ∧
    ∃ t, stepN ((pulseSamples ps).length + 2) s = .next t ∧ t.regs.st = .rxWait ∧ t.regs.wcnt = 0 ∧
      t.regs.seqClosed = false ∧ t.regs.len.toNat = min (ps.length + 1) (s.cfg.seqDepth - 1) ∧
      t.regs.seqOvf = decide (s.cfg.seqDepth - 2 < ps.length)

/-! ### Decode -/

/-- `DEC_SCAN` (43_dec.md R156, R165): the stop, and what each kind of element does to the accumulator and the weight;
every other register is unchanged, the whole buffer included. The element is the stored one where the index is in the
buffer, as the invariant gives. -/
def Obligations.DecScanEdge : Prop :=
  ∀ s : State, s.regs.st = .decScan → s.input.rst = false →
    ∃ t, step s = .next t ∧
      (s.regs.idx = 0 → t.regs = { s.regs with st := .idle }) ∧
      (∀ e, s.regs.idx ≠ 0 → s.regs.seq[s.regs.idx.toNat]? = some e →
        t.regs = { s.regs with acc := t.regs.acc, weight := t.regs.weight, idx := s.regs.idx - 1 } ∧
        (e = .one → t.regs.acc = s.regs.acc + s.regs.weight.setWidth 32 ∧ t.regs.weight = 2 * s.regs.weight) ∧
        (e = .zero → t.regs.acc = s.regs.acc ∧ t.regs.weight = 2 * s.regs.weight) ∧
        (e ≠ .one → e ≠ .zero → t.regs.acc = s.regs.acc ∧ t.regs.weight = s.regs.weight))

/-- A `DEC` of a stream of length `L` is busy for exactly `L − 1` cycles and then `VALUE` is the number that the
contributing elements write in binary, most significant first (43_dec.md R157, R158), with `WEIGHT = 2^c`; every other
register is unchanged, so a second `DEC` returns the same. -/
def Obligations.DecReconstructsValue : Prop :=
  ∀ s : State, s.Inv → s.regs.st = .idle → s.Presents .dec → s.NoReset s.regs.len.toNat →
    s.BusyFor (s.regs.len.toNat - 1) ∧
    ∃ t, stepN s.regs.len.toNat s = .next t ∧
      t.regs = { s.regs with op := 0b11#2, idx := 0, acc := t.regs.acc, weight := t.regs.weight, st := .idle } ∧
      t.regs.acc.toNat = decodeElements s.regs.elements ∧
      t.regs.weight.toNat = 2 ^ (s.regs.elements.filter contributes).length ∧
      readPort t.cfg t.regs 0x04 = BitVec.ofNat 32 (decodeElements s.regs.elements)

/-- The forward form of `decode` gives the same number as the sum over the digits (43_dec.md R158). -/
def Obligations.DecodeFormsAgree : Prop := ∀ es : List Tag, decodeForward es = decodeElements es

/-- 43_dec.md R159: over `ZERO` and `ONE` entries only, `decode` is `b_n + 2·b_(n−1) + 4·b_(n−2) + …`. -/
def Obligations.MonotonicWeighting : Prop :=
  ∀ es : List Tag, (∀ e ∈ es, contributes e = true) →
    decodeElements es =
      (List.range es.length).foldl (fun v i => v + bitOf (es.getD (es.length - 1 - i) .noise) * 2 ^ i) 0

/-- Noise transparency, the empty stream and leading zeros (43_dec.md R160, R162, R163): a `NOISE` anywhere changes
nothing, a stream without a contributing element decodes to 0, and so does not a leading `ZERO`. -/
def Obligations.NoiseAndZerosInDecode : Prop :=
  (∀ xs ys : List Tag, decodeElements (xs ++ .noise :: ys) = decodeElements (xs ++ ys)) ∧
  (∀ es : List Tag, (∀ e ∈ es, contributes e = false) → decodeElements es = 0) ∧
  (∀ es : List Tag, decodeElements (.zero :: es) = decodeElements es)

/-- No arithmetic of the scan overflows (43_dec.md R156, R163): in every state of the invariant, whatever element is
scanned, a `ONE` adds the exact weight and nothing else changes the accumulator, a contributing element doubles the
weight exactly and any other keeps it, and the index goes down by exactly one. -/
def Obligations.ScanArithmeticIsExact : Prop :=
  ∀ (s t : State) (e : Tag), s.Inv → s.regs.st = .decScan → s.regs.idx ≠ 0 → s.input.rst = false →
    s.regs.seq[s.regs.idx.toNat]? = some e → step s = .next t →
    (e = .one → t.regs.acc.toNat = s.regs.acc.toNat + s.regs.weight.toNat) ∧
    (e ≠ .one → t.regs.acc.toNat = s.regs.acc.toNat) ∧
    (contributes e = true → t.regs.weight.toNat = 2 * s.regs.weight.toNat) ∧
    (contributes e = false → t.regs.weight.toNat = s.regs.weight.toNat) ∧
    t.regs.idx.toNat = s.regs.idx.toNat - 1

/-! ### Outputs -/

/-- 10_state.md R21: the outputs are functions of the state, and `rdata` of `raddr` besides; no output depends on
`cmd_valid`, `cmd`, `rst` or `data_in`; what an edge changes shows in the next cycle. -/
def Obligations.OutputsFromState : Prop :=
  (∀ s : State,
    s.outputs = { cmdReady := decide (s.regs.st = .idle), clockOut := s.regs.clockOut, dataOut := s.regs.dataOut,
                  rdata := readPort s.cfg s.regs s.input.raddr }) ∧
  (∀ (s : State) (i j : Input), i.raddr = j.raddr → (s.withInput i).outputs = (s.withInput j).outputs) ∧
  (∀ s t : State, step s = .next t → t.outputs.clockOut = t.regs.clockOut ∧ t.outputs.dataOut = t.regs.dataOut ∧
    t.outputs.rdata = readPort s.cfg t.regs (s.inputAt 1).raddr)

/-- 10_state.md R40: the host read space, address by address; every address that the table does not list reads 0; a
read changes nothing. -/
def Obligations.HostReadSpace : Prop :=
  (∀ (c : Config) (r : Regs), c.Valid → Memory.wf c.seqDepth r.seq = true →
    readPort c r 0x00 = status r ∧ readPort c r 0x01 = (tagCode r.bitres).setWidth 32 ∧
    readPort c r 0x02 = r.dcnt ∧ readPort c r 0x03 = r.len.setWidth 32 ∧ readPort c r 0x04 = r.acc ∧
    (∀ a : Byte, 0x05 ≤ a.toNat → a.toNat ≤ 0x7F → readPort c r a = 0) ∧
    (∀ i : Nat, i < c.seqDepth → ∃ e, r.seq[i]? = some e ∧
      readPort c r (BitVec.ofNat 8 (0x80 + i)) = (tagCode e).setWidth 32) ∧
    (∀ i : Nat, c.seqDepth ≤ i → i ≤ 127 → readPort c r (BitVec.ofNat 8 (0x80 + i)) = 0)) ∧
  (∀ (s : State) (i : Input) (a : Byte), step (s.withInput { i with raddr := a }) = step (s.withInput i))

/-- 10_state.md R41: every field of STATUS, and its value after reset; the codes of `ST` are those of R24 and the codes
of the tags, which the other reads show, those of 30_encoding.md R86. -/
def Obligations.StatusFields : Prop :=
  (∀ r : Regs,
    (status r).getLsbD 0 = decide (r.st ≠ .idle) ∧ (status r).getLsbD 1 = r.seqClosed ∧
    (status r).getLsbD 2 = r.seqOvf ∧ (status r).getLsbD 3 = r.clockOut ∧ (status r).getLsbD 4 = r.dataOut ∧
    (status r).extractLsb' 5 3 = 0 ∧ (status r).extractLsb' 8 4 = stateCode r.st ∧
    (status r).extractLsb' 12 2 = r.op ∧ (status r).extractLsb' 14 18 = 0) ∧
  (∀ c : Config, status (Regs.reset c) = 0x0000000A) ∧
  [SeqState.idle, .txPre, .txData, .txLow, .txHigh, .txPost, .rxWait, .rxHigh, .decScan].map stateCode =
    [0, 1, 2, 3, 4, 5, 6, 7, 8] ∧
  [Tag.zero, .one, .noise, .timeout, .start].map tagCode = [0, 1, 2, 3, 4]

/-! ### Whole-machine rules -/

/-- The transition relation of `ST` (the table of 44_sequencing.md R150), every row, under every input without
reset. -/
def Obligations.TransitionTable : Prop :=
  ∀ s : State, s.input.rst = false →
    ∃ t, step s = .next t ∧
      t.regs.st =
        match s.regs.st with
        | .idle =>
          if s.input.cmdValid = false then .idle
          else if cmdOp s.input.cmd = 0b00#2 then .txPre
          else if cmdOp s.input.cmd = 0b11#2 then .decScan
          else .rxWait
        | .txPre => if s.regs.dly = 1 then .txData else .txPre
        | .txData => .txLow
        | .txLow => if s.regs.dly = 1 then .txHigh else .txLow
        | .txHigh => if s.regs.dly = 1 then (if s.regs.nbit = 0 then .txPost else .txData) else .txHigh
        | .txPost => if s.regs.dly = 1 then .idle else .txPost
        | .rxWait =>
          if s.input.din = true then .rxHigh
          else if s.regs.wcnt.toNat + 1 = s.cfg.deadline then .idle
          else .rxWait
        | .rxHigh => if s.input.din = true then .rxHigh else if s.regs.op = 0b10#2 then .rxWait else .idle
        | .decScan => if s.regs.idx = 0 then .idle else .decScan

/-- What the sequencer's own edges leave unchanged (the writer column of 10_state.md R22): the transmit states touch
no receive, stream or decoder register, the receive states no pin and no transmit or decoder register, the scan only
the decoder registers; none writes `OP`. -/
def Obligations.SequencerFrames : Prop :=
  ∀ s t : State, s.regs.st ≠ .idle → s.input.rst = false → step s = .next t →
    t.regs.op = s.regs.op ∧
    (s.regs.st = .txPre ∨ s.regs.st = .txData ∨ s.regs.st = .txLow ∨ s.regs.st = .txHigh ∨ s.regs.st = .txPost →
      SameCounters s.regs t.regs ∧ SameStream s.regs t.regs ∧ SameDecoder s.regs t.regs ∧
      t.regs.bitres = s.regs.bitres) ∧
    (s.regs.st = .rxWait ∨ s.regs.st = .rxHigh →
      SamePins s.regs t.regs ∧ SameTransmit s.regs t.regs ∧ SameDecoder s.regs t.regs ∧
      (s.regs.op ≠ opRseq → SameStream s.regs t.regs)) ∧
    (s.regs.st = .decScan →
      SamePins s.regs t.regs ∧ SameTransmit s.regs t.regs ∧ SameCounters s.regs t.regs ∧
      SameStream s.regs t.regs ∧ t.regs.bitres = s.regs.bitres)

/-- Which edge changes a pin (10_state.md R27, 44_sequencing.md R152): without reset, `ClockOut` falls only at the end
of `TX_DATA` and rises only at the end of `TX_LOW`, and `DataOut` changes only on entering `TX_DATA`. -/
def Obligations.PinsChangeOnlyInFrame : Prop :=
  ∀ s t : State, s.input.rst = false → step s = .next t →
    (t.regs.clockOut ≠ s.regs.clockOut →
      (s.regs.st = .txData ∧ t.regs.st = .txLow ∧ t.regs.clockOut = false) ∨
      (s.regs.st = .txLow ∧ t.regs.st = .txHigh ∧ t.regs.clockOut = true)) ∧
    (t.regs.dataOut ≠ s.regs.dataOut → (s.regs.st = .txPre ∨ s.regs.st = .txHigh) ∧ t.regs.st = .txData)

/-- Only `RSEQ` writes the sequence buffer, its length and the two flags (10_state.md R26, R30), at most one element an
edge, at the index of 44_sequencing.md R151: 0 at acceptance, `LEN` at a delivery; without reset. -/
def Obligations.OnlyRseqWritesStream : Prop :=
  ∀ s t : State, s.input.rst = false → step s = .next t →
    (¬ (s.regs.st = .idle ∧ s.input.cmdValid = true ∧ cmdOp s.input.cmd = opRseq) →
      ¬ ((s.regs.st = .rxWait ∨ s.regs.st = .rxHigh) ∧ s.regs.op = opRseq) → SameStream s.regs t.regs) ∧
    (∀ a, a ≠ (if s.regs.st = .idle then 0 else s.regs.len.toNat) →
      memRead t.regs.seq a = memRead s.regs.seq a) ∧
    t.regs.seq.length = s.regs.seq.length

/-- The registers that other operations leave alone (10_state.md R25, R42, R45): without reset, `OP` changes only at an
acceptance, `BITRES` only at an edge that completes a receiveBit (the deasserted sample that ends a pulse, or the one
that reaches the deadline, 41_rbit.md R121, R122), `ACC` only at the acceptance of `DEC` and in its scan. -/
def Obligations.OpBitresAccWriters : Prop :=
  ∀ s t : State, s.input.rst = false → step s = .next t →
    (t.regs.op ≠ s.regs.op → s.regs.st = .idle ∧ s.input.cmdValid = true) ∧
    (t.regs.bitres ≠ s.regs.bitres →
      (s.regs.st = .rxHigh ∨ (s.regs.st = .rxWait ∧ s.regs.wcnt.toNat + 1 = s.cfg.deadline)) ∧
        s.input.din = false ∧ t.regs.bitres ≠ .start) ∧
    (t.regs.acc ≠ s.regs.acc →
      s.regs.st = .decScan ∨ (s.regs.st = .idle ∧ s.input.cmdValid = true ∧ cmdOp s.input.cmd = opDec))

/-- The reset state has the invariant of 10_state.md R51, in every valid configuration. -/
def Obligations.ResetHasInvariant : Prop :=
  State.reset.Inv ∧ ∀ s : State, s.cfg.Valid → s.regs = Regs.reset s.cfg → s.Inv

/-- The invariant of 10_state.md R51 is kept by every step, from every state that has it and under every input. -/
def Obligations.StepKeepsInvariant : Prop := ∀ s t : State, s.Inv → step s = .next t → t.Inv

/-- Every index the rules form is in range (44_sequencing.md R151, 20_memory.md R63, 10_state.md R51): in every state of the invariant
the scan reads a stored element, a pulse tag, from `1 .. LEN − 2`, and an open stream has room for the element at
`LEN`; so the model's free value for an index outside the buffer (log 5) is never read. -/
def Obligations.IndicesInRange : Prop :=
  ∀ s : State, s.Inv →
    (s.regs.st = .decScan → s.regs.idx ≠ 0 →
      1 ≤ s.regs.idx.toNat ∧ s.regs.idx.toNat ≤ s.regs.len.toNat - 2 ∧
      ∃ e, s.regs.seq[s.regs.idx.toNat]? = some e ∧ isPulseTag e = true ∧ memRead s.regs.seq s.regs.idx.toNat = e) ∧
    (s.regs.seqClosed = false → s.regs.len.toNat < s.regs.seq.length) ∧
    (s.regs.st = .idle → 2 ≤ s.regs.len.toNat ∧ 0 < s.regs.seq.length)

/-- The standard host driver (30_encoding.md R91): in an idle cycle with a command left it presents the next one, which
is accepted at the end of that cycle; in a busy cycle it presents none; it stops where the program has ended. -/
def Obligations.DriverIssuesBackToBack : Prop :=
  (∀ (w : CmdWord) (p : List CmdWord) (din : Bool) (dins : List Bool) (s : State), s.regs.st = .idle →
    ∃ t, exec (decodeCmd w) (s.withInput (driverInput (w :: p) s din)) = .next t ∧
      drive (w :: p) (din :: dins) s = drive p dins t.advance) ∧
  (∀ (p : List CmdWord) (din : Bool) (dins : List Bool) (s : State), s.regs.busy = true →
    (driverInput p s din).cmdValid = false ∧ (driverInput p s din).rst = false ∧
    ∃ t, step (s.withInput (driverInput p s din)) = .next t ∧ drive p (din :: dins) s = drive p dins t) ∧
  (∀ (dins : List Bool) (s : State), s.regs.st = .idle → drive [] dins s = .next ([], s))
end

