-- ==== Sys2Proof/Laws/Memory.lean ====
section
/-!
SUPPORT. The sequence buffer: a write keeps its size, is read back at its index, and leaves every other element alone.
-/

namespace Sys2Proof.Laws

open Sys2Proof.Machine

@[simp] theorem memWrite_length (m : Memory) (i : Nat) (t : Tag) : (memWrite m i t).length = m.length := by
  simp [memWrite]

/-- Every write keeps the canonical form of the buffer. -/
theorem memWrite_wf (depth : Nat) (m : Memory) (i : Nat) (t : Tag) (h : Memory.wf depth m = true) :
    Memory.wf depth (memWrite m i t) = true := by
  simpa [Memory.wf] using h

/-- The buffer after reset has the canonical form. -/
theorem reset_seq_wf (c : Config) : Memory.wf c.seqDepth (Regs.reset c).seq = true := by
  simp [Memory.wf, Regs.reset]

theorem memRead_eq_getElem (m : Memory) (i : Nat) (h : i < m.length) : memRead m i = m[i] := by
  simp [memRead, h]

/-- Inside the buffer a read answers the stored element, never the free value. -/
theorem memRead_of_some (m : Memory) (i : Nat) (t : Tag) (h : m[i]? = some t) : memRead m i = t := by
  simp [memRead, List.getD, h]

theorem memRead_memWrite_same (m : Memory) (i : Nat) (t : Tag) (h : i < m.length) :
    memRead (memWrite m i t) i = t := by
  simp [memRead, memWrite, h]

theorem memRead_memWrite_other (m : Memory) (i j : Nat) (t : Tag) (h : j ≠ i) :
    memRead (memWrite m i t) j = memRead m j := by
  simp [memRead, memWrite, List.getD, Ne.symm h]

theorem getElem?_memWrite_same (m : Memory) (i : Nat) (t : Tag) (h : i < m.length) :
    (memWrite m i t)[i]? = some t := by
  simp [memWrite, h]

theorem getElem?_memWrite_other (m : Memory) (i j : Nat) (t : Tag) (h : j ≠ i) :
    (memWrite m i t)[j]? = m[j]? := by
  simp [memWrite, Ne.symm h]

end Sys2Proof.Laws
end

