-- ==== Sys2Proof/Laws/Ops.lean ====
section
/-!
SUPPORT. What each shared operation can do, said once: the cases of `append`, `deliver`, `classify` and of the rule of
every sequencer state, as equations that later proofs cite instead of unfolding.
-/

namespace Sys2Proof.Laws

open Sys2Proof.Machine

/-- A number below 2^32 loses nothing as the content of a counter. -/
theorem ticks_toNat (n : Nat) (h : n < 2 ^ 32) : (ticks n).toNat = n := by
  simp only [ticks, BitVec.toNat_ofNat]; omega

/-- `classify` never answers a terminator or a start marker. -/
theorem classify_pulse (c : Config) (d : Nat) : classify c d = .zero ∨ classify c d = .one ∨ classify c d = .noise := by
  unfold classify
  split
  · simp
  · split <;> simp

theorem classify_ne_timeout (c : Config) (d : Nat) : classify c d ≠ .timeout := by
  rcases classify_pulse c d with h | h | h <;> simp [h]

/-- A duration above `T_NOISE_HIGH + 1` has the class of the saturated count. -/
theorem classify_saturated (c : Config) (d : Nat) : classify c (min d (c.tNoiseHigh + 1)) = classify c d := by
  by_cases h : d ≤ c.tNoiseHigh + 1
  · rw [Nat.min_eq_left h]
  · rw [Nat.min_eq_right (by omega)]
    unfold classify
    rw [if_pos (by omega), if_pos (by omega)]

theorem append_timeout (c : Config) (r : Regs) :
    append c r .timeout =
      { r with seq := memWrite r.seq r.len.toNat .timeout, len := r.len + 1, seqClosed := true, st := .idle } := by
  simp [append, pushTag, Regs.markClosed]

theorem append_stored (c : Config) (r : Regs) (t : Tag) (ht : t ≠ .timeout) (hl : r.len.toNat < c.seqDepth - 1) :
    append c r t =
      { r with seq := memWrite r.seq r.len.toNat t, len := r.len + 1, wcnt := 0, dcnt := 0, st := .rxWait } := by
  simp [append, hasRoom, ht, hl, pushTag, startReceive]

theorem append_dropped (c : Config) (r : Regs) (t : Tag) (ht : t ≠ .timeout) (hl : ¬ r.len.toNat < c.seqDepth - 1) :
    append c r t = { r with seqOvf := true, wcnt := 0, dcnt := 0, st := .rxWait } := by
  simp [append, hasRoom, ht, hl, startReceive, Regs.markOverflow]

/-- All that `append` can do. -/
theorem append_cases (c : Config) (r : Regs) (t : Tag) :
    (t = .timeout ∧ append c r t =
      { r with seq := memWrite r.seq r.len.toNat t, len := r.len + 1, seqClosed := true, st := .idle }) ∨
    (t ≠ .timeout ∧ r.len.toNat < c.seqDepth - 1 ∧ append c r t =
      { r with seq := memWrite r.seq r.len.toNat t, len := r.len + 1, wcnt := 0, dcnt := 0, st := .rxWait }) ∨
    (t ≠ .timeout ∧ ¬ r.len.toNat < c.seqDepth - 1 ∧ append c r t =
      { r with seqOvf := true, wcnt := 0, dcnt := 0, st := .rxWait }) := by
  by_cases ht : t = .timeout
  · subst ht; exact .inl ⟨rfl, append_timeout c r⟩
  · by_cases hl : r.len.toNat < c.seqDepth - 1
    · exact .inr (.inl ⟨ht, hl, append_stored c r t ht hl⟩)
    · exact .inr (.inr ⟨ht, hl, append_dropped c r t ht hl⟩)

theorem deliver_rseq (c : Config) (r : Regs) (t : Tag) (h : r.op = opRseq) :
    deliver c r t = append c { r with bitres := t } t := by
  simp [deliver, h]

theorem deliver_single (c : Config) (r : Regs) (t : Tag) (h : r.op ≠ opRseq) :
    deliver c r t = { r with bitres := t, st := .idle } := by
  simp [deliver, h]

/-- What `deliver` never touches, whatever it delivers. -/
theorem deliver_frame (c : Config) (r : Regs) (t : Tag) :
    (deliver c r t).op = r.op ∧ (deliver c r t).clockOut = r.clockOut ∧ (deliver c r t).dataOut = r.dataOut ∧
    (deliver c r t).sh = r.sh ∧ (deliver c r t).nbit = r.nbit ∧ (deliver c r t).dly = r.dly ∧
    (deliver c r t).idx = r.idx ∧ (deliver c r t).acc = r.acc ∧ (deliver c r t).weight = r.weight ∧
    (deliver c r t).bitres = t := by
  by_cases h : r.op = opRseq
  · rw [deliver_rseq c r t h]
    rcases append_cases c { r with bitres := t } t with ⟨-, h⟩ | ⟨-, -, h⟩ | ⟨-, -, h⟩ <;> rw [h] <;> simp
  · rw [deliver_single c r t h]; simp

/-- The rule of `RX_WAIT` at an asserted sample. -/
theorem edgeRxWait_rise (c : Config) (r : Regs) : edgeRxWait c r true = { r with dcnt := 1, st := .rxHigh } := by
  simp [edgeRxWait]

/-- The rule of `RX_WAIT` at a deasserted sample before the deadline. -/
theorem edgeRxWait_wait (c : Config) (r : Regs) (h : r.wcnt.toNat + 1 ≠ c.deadline) :
    edgeRxWait c r false = { r with wcnt := r.wcnt + 1 } := by
  simp [edgeRxWait, deadlineReached, h]

/-- The rule of `RX_WAIT` at the deasserted sample that reaches the deadline. -/
theorem edgeRxWait_deadline (c : Config) (r : Regs) (h : r.wcnt.toNat + 1 = c.deadline) :
    edgeRxWait c r false = deliver c { r with wcnt := r.wcnt + 1 } .timeout := by
  simp [edgeRxWait, deadlineReached, h]

/-- The rule of `RX_HIGH` at an asserted sample. -/
theorem edgeRxHigh_count (c : Config) (r : Regs) :
    edgeRxHigh c r true = { r with dcnt := countHigh c r.dcnt } := by
  simp [edgeRxHigh]

/-- The rule of `RX_HIGH` at the deasserted sample that ends the pulse. -/
theorem edgeRxHigh_fall (c : Config) (r : Regs) :
    edgeRxHigh c r false = deliver c r (classify c r.dcnt.toNat) := by
  simp [edgeRxHigh]

/-- The scan of one element. -/
theorem edgeDecScan_stop (c : Config) (r : Regs) (h : r.idx = 0) : edgeDecScan c r = { r with st := .idle } := by
  rw [edgeDecScan, if_pos h]

theorem edgeDecScan_one (c : Config) (r : Regs) (h : r.idx ≠ 0) (he : memRead r.seq r.idx.toNat = .one) :
    edgeDecScan c r =
      { r with acc := r.acc + r.weight.setWidth 32, weight := r.weight <<< 1, idx := r.idx - 1 } := by
  rw [edgeDecScan, if_neg h]; simp [scanElement, he]

theorem edgeDecScan_zero (c : Config) (r : Regs) (h : r.idx ≠ 0) (he : memRead r.seq r.idx.toNat = .zero) :
    edgeDecScan c r = { r with weight := r.weight <<< 1, idx := r.idx - 1 } := by
  rw [edgeDecScan, if_neg h]; simp [scanElement, he]

theorem edgeDecScan_skip (c : Config) (r : Regs) (h : r.idx ≠ 0) (h1 : memRead r.seq r.idx.toNat ≠ .one)
    (h0 : memRead r.seq r.idx.toNat ≠ .zero) : edgeDecScan c r = { r with idx := r.idx - 1 } := by
  rw [edgeDecScan, if_neg h]; simp [scanElement, h0, h1]

end Sys2Proof.Laws
end

