-- ==== Sys2Proof/Laws/State.lean ====
section
/-!
SUPPORT. One lemma per field per update of the state, true by `rfl`, and what the input of a later cycle becomes when
a cycle ends.
-/

namespace Sys2Proof.Laws

open Sys2Proof.Machine

@[simp] theorem setRegs_cfg (s : State) (r : Regs) : (s.setRegs r).cfg = s.cfg := rfl
@[simp] theorem setRegs_regs (s : State) (r : Regs) : (s.setRegs r).regs = r := rfl
@[simp] theorem setRegs_inputs (s : State) (r : Regs) : (s.setRegs r).inputs = s.inputs := rfl
@[simp] theorem setRegs_cycle (s : State) (r : Regs) : (s.setRegs r).cycle = s.cycle := rfl

@[simp] theorem advance_cfg (s : State) : s.advance.cfg = s.cfg := rfl
@[simp] theorem advance_regs (s : State) : s.advance.regs = s.regs := rfl
@[simp] theorem advance_inputs (s : State) : s.advance.inputs = s.inputs.tail := rfl
@[simp] theorem advance_cycle (s : State) : s.advance.cycle = s.cycle + 1 := rfl

@[simp] theorem resetEdge_cfg (s : State) : s.resetEdge.cfg = s.cfg := rfl
@[simp] theorem resetEdge_regs (s : State) : s.resetEdge.regs = Regs.reset s.cfg := rfl
@[simp] theorem resetEdge_inputs (s : State) : s.resetEdge.inputs = s.inputs := rfl
@[simp] theorem resetEdge_cycle (s : State) : s.resetEdge.cycle = s.cycle := rfl

@[simp] theorem tick_cfg (s : State) : s.tick.cfg = s.cfg := rfl
@[simp] theorem tick_regs (s : State) : s.tick.regs = edgeRegs s.cfg s.regs s.input.din := rfl
@[simp] theorem tick_inputs (s : State) : s.tick.inputs = s.inputs := rfl
@[simp] theorem tick_cycle (s : State) : s.tick.cycle = s.cycle := rfl

@[simp] theorem setRegs_inputAt (s : State) (r : Regs) (n : Nat) : (s.setRegs r).inputAt n = s.inputAt n := rfl
@[simp] theorem tick_inputAt (s : State) (n : Nat) : s.tick.inputAt n = s.inputAt n := rfl
@[simp] theorem resetEdge_inputAt (s : State) (n : Nat) : s.resetEdge.inputAt n = s.inputAt n := rfl

/-- After the end of a cycle, the input `n` cycles on is the one that was `n + 1` cycles on. -/
@[simp] theorem advance_inputAt (s : State) (n : Nat) : s.advance.inputAt n = s.inputAt (n + 1) := by
  unfold State.inputAt State.advance
  cases h : s.inputs with
  | nil => simp [Nat.add_comm, Nat.add_left_comm]
  | cons i is => simp [Nat.add_comm, Nat.add_left_comm]

/-- The acceptance of a command in `IDLE`. -/
theorem accept_idle (s : State) (op : BitVec 2) (writes : Config → Regs → Regs) (h : s.regs.st = .idle) :
    s.accept op writes = s.setRegs (writes s.cfg { s.regs with op := op }) := by
  simp [State.accept, h]

/-- A command presented while busy has no effect. -/
theorem accept_busy (s : State) (op : BitVec 2) (writes : Config → Regs → Regs) (h : s.regs.st ≠ .idle) :
    s.accept op writes = s := by
  simp [State.accept, h]

@[simp] theorem accept_cfg (s : State) (op : BitVec 2) (writes : Config → Regs → Regs) :
    (s.accept op writes).cfg = s.cfg := by
  unfold State.accept; split <;> rfl

@[simp] theorem accept_inputs (s : State) (op : BitVec 2) (writes : Config → Regs → Regs) :
    (s.accept op writes).inputs = s.inputs := by
  unfold State.accept; split <;> rfl

@[simp] theorem accept_cycle (s : State) (op : BitVec 2) (writes : Config → Regs → Regs) :
    (s.accept op writes).cycle = s.cycle := by
  unfold State.accept; split <;> rfl

end Sys2Proof.Laws
end

