-- ==== Sys2Proof/Laws/Step.lean ====
section
/-!
SUPPORT. What a step can do, said once: every step answers a next state, and which of the three edges it is.
-/

namespace Sys2Proof.Laws

open Sys2Proof.Machine

/-- The state a command leads to. -/
def commanded (i : Instr) (s : State) : State :=
  match i with
  | .send value => s.accept opSend (acceptSend value)
  | .rbit => s.accept opRbit acceptRbit
  | .rseq => s.accept opRseq acceptRseq
  | .dec => s.accept opDec acceptDec

/-- Every command answers a next state. -/
theorem exec_eq_next (i : Instr) (s : State) : exec i s = .next (commanded i s) := by
  cases i <;> rfl

/-- The state a step leads to. -/
def edge (s : State) : State :=
  if s.input.rst then s.resetEdge.advance
  else
    match s.fetch with
    | some i => (commanded i s).advance
    | none => s.tick.advance

/-- Every step answers a next state. -/
theorem step_eq_next (s : State) : step s = .next (edge s) := by
  unfold step edge
  by_cases h : s.input.rst = true
  · simp [h]
  · cases hf : s.fetch <;> simp [h, exec_eq_next, endCycle]

theorem edge_reset (s : State) (h : s.input.rst = true) : edge s = s.resetEdge.advance := by
  simp [edge, h]

theorem fetch_presented (s : State) (hst : s.regs.st = .idle) (hv : s.input.cmdValid = true) :
    s.fetch = some (decodeCmd s.input.cmd) := by
  simp [State.fetch, hst, hv]

theorem fetch_busy (s : State) (hst : s.regs.st ≠ .idle) : s.fetch = none := by
  simp [State.fetch, hst]

theorem fetch_quiet (s : State) (hv : s.input.cmdValid = false) : s.fetch = none := by
  simp [State.fetch, hv]

/-- The edge of an accepted command. -/
theorem edge_command (s : State) (hr : s.input.rst = false) (hst : s.regs.st = .idle)
    (hv : s.input.cmdValid = true) : edge s = (commanded (decodeCmd s.input.cmd) s).advance := by
  simp [edge, hr, fetch_presented s hst hv]

/-- The edge of a busy cycle. -/
theorem edge_busy (s : State) (hr : s.input.rst = false) (hst : s.regs.st ≠ .idle) : edge s = s.tick.advance := by
  simp [edge, hr, fetch_busy s hst]

/-- The edge of a cycle without a command. -/
theorem edge_quiet (s : State) (hr : s.input.rst = false) (hv : s.input.cmdValid = false) :
    edge s = s.tick.advance := by
  simp [edge, hr, fetch_quiet s hv]

/-- All that a step can do. -/
theorem edge_cases (s : State) :
    (s.input.rst = true ∧ edge s = s.resetEdge.advance) ∨
    (s.input.rst = false ∧ s.regs.st = .idle ∧ s.input.cmdValid = true ∧
      edge s = (commanded (decodeCmd s.input.cmd) s).advance) ∨
    (s.input.rst = false ∧ (s.regs.st ≠ .idle ∨ s.input.cmdValid = false) ∧ edge s = s.tick.advance) := by
  cases hr : s.input.rst
  · by_cases hst : s.regs.st = .idle
    · cases hv : s.input.cmdValid
      · exact .inr (.inr ⟨rfl, .inr rfl, edge_quiet s hr hv⟩)
      · exact .inr (.inl ⟨rfl, hst, rfl, edge_command s hr hst hv⟩)
    · exact .inr (.inr ⟨rfl, .inl hst, edge_busy s hr hst⟩)
  · exact .inl ⟨rfl, edge_reset s hr⟩

@[simp] theorem commanded_cfg (i : Instr) (s : State) : (commanded i s).cfg = s.cfg := by
  cases i <;> simp [commanded]

@[simp] theorem commanded_inputs (i : Instr) (s : State) : (commanded i s).inputs = s.inputs := by
  cases i <;> simp [commanded]

@[simp] theorem commanded_cycle (i : Instr) (s : State) : (commanded i s).cycle = s.cycle := by
  cases i <;> simp [commanded]

@[simp] theorem edge_cfg (s : State) : (edge s).cfg = s.cfg := by
  rcases edge_cases s with ⟨-, h⟩ | ⟨-, -, -, h⟩ | ⟨-, -, h⟩ <;> simp [h]

@[simp] theorem edge_inputs (s : State) : (edge s).inputs = s.inputs.tail := by
  rcases edge_cases s with ⟨-, h⟩ | ⟨-, -, -, h⟩ | ⟨-, -, h⟩ <;> simp [h]

@[simp] theorem edge_cycle (s : State) : (edge s).cycle = s.cycle + 1 := by
  rcases edge_cases s with ⟨-, h⟩ | ⟨-, -, -, h⟩ | ⟨-, -, h⟩ <;> simp [h]

@[simp] theorem edge_inputAt (s : State) (n : Nat) : (edge s).inputAt n = s.inputAt (n + 1) := by
  rw [← advance_inputAt]
  simp [State.inputAt]

/-- The state after `n` steps. -/
def edges : Nat → State → State
  | 0, s => s
  | n + 1, s => edges n (edge s)

/-- Every run of steps answers a next state. -/
theorem stepN_eq_next (n : Nat) (s : State) : stepN n s = .next (edges n s) := by
  induction n generalizing s with
  | zero => rfl
  | succ n ih => simp [stepN, step_eq_next, edges, ih]

theorem edges_add (m n : Nat) (s : State) : edges (m + n) s = edges n (edges m s) := by
  induction m generalizing s with
  | zero => simp [edges]
  | succ m ih => rw [Nat.add_right_comm]; simp [edges, ih]

theorem edges_succ (n : Nat) (s : State) : edges (n + 1) s = edge (edges n s) := by
  rw [edges_add]; rfl

@[simp] theorem edges_cfg (n : Nat) (s : State) : (edges n s).cfg = s.cfg := by
  induction n generalizing s with
  | zero => rfl
  | succ n ih => simp [edges, ih]

@[simp] theorem edges_inputAt (n k : Nat) (s : State) : (edges n s).inputAt k = s.inputAt (n + k) := by
  induction n generalizing s with
  | zero => simp [edges]
  | succ n ih => simp [edges, ih, Nat.add_right_comm]

end Sys2Proof.Laws
end

