-- ==== Sys2Proof/Laws/Invariant.lean ====
section
/-!
SUPPORT. The invariant of 10_state.md R51: what an update of one group of registers must meet to keep it, one lemma
per group (transmit, receive counters, stream, decoder).
-/

namespace Sys2Proof.Laws

open Sys2Proof.Machine

/-- Outside the receive states of `RSEQ` the stream is closed. -/
theorem closed_of_not_receiving {c : Config} {r : Regs} (h : r.Inv c)
    (hs : ¬ (r.op = opRseq ∧ (r.st = .rxWait ∨ r.st = .rxHigh))) : r.seqClosed = true := by
  cases hc : r.seqClosed
  · exact absurd (h.openIff.1 hc) hs
  · rfl

/-- The part of the invariant about the transmit registers and the clock pin (10_state.md R51 items 6 to 8). -/
def TransmitOk (c : Config) (st : SeqState) (clock : Bool) (nbit : BitVec 4) (dly : BitVec 32) : Prop :=
  (clock = false ↔ st = .txLow) ∧
  (st ≠ .txPre → st ≠ .txLow → st ≠ .txHigh → st ≠ .txPost → dly = 0) ∧
  (st = .txPre → 1 ≤ dly.toNat ∧ dly.toNat ≤ c.tPre) ∧
  (st = .txLow ∨ st = .txHigh → 1 ≤ dly.toNat ∧ dly.toNat ≤ c.tHold) ∧
  (st = .txPost → 1 ≤ dly.toNat ∧ dly.toNat ≤ c.tPost) ∧
  (nbit.toNat ≤ 8 ∧ (st = .txPre → nbit = 8) ∧
    (st = .txData ∨ st = .txLow ∨ st = .txHigh → nbit.toNat ≤ 7) ∧ (st = .txPost → nbit = 0))

theorem transmitOk_of_inv {c : Config} {r : Regs} (h : r.Inv c) : TransmitOk c r.st r.clockOut r.nbit r.dly :=
  ⟨h.clockLow, h.dlyZero, h.dlyPre, h.dlyHold, h.dlyPost, h.nbitRange⟩

/-- A state that is neither a receive state nor the scan. -/
def quietState (st : SeqState) : Prop := st ≠ .rxWait ∧ st ≠ .rxHigh ∧ st ≠ .decScan

/-- An update of the transmit registers and the pins, between states that neither receive nor scan, keeps the
invariant if the new values meet the transmit part of it. -/
theorem inv_transmit_update {c : Config} {r : Regs} (h : r.Inv c) (hs : quietState r.st) (st : SeqState)
    (op : BitVec 2) (clock data : Bool) (sh : Byte) (nbit : BitVec 4) (dly : BitVec 32) (hs' : quietState st)
    (ok : TransmitOk c st clock nbit dly) :
    ({ r with
        st := st, op := op, clockOut := clock, dataOut := data, sh := sh, nbit := nbit, dly := dly } : Regs).Inv c := by
  have hc : r.seqClosed = true := closed_of_not_receiving h (fun ⟨_, hr⟩ => hr.elim hs.1 hs.2.1)
  exact {
    seqSize := h.seqSize
    startMarker := h.startMarker
    lenRange := h.lenRange
    openIff := ⟨fun ho => absurd (hc.symm.trans ho) (by decide),
      fun ⟨_, hr⟩ => hr.elim (fun e => absurd e hs'.1) (fun e => absurd e hs'.2.1)⟩
    closedShape := h.closedShape
    openShape := h.openShape
    clockLow := ok.1
    dlyZero := ok.2.1
    dlyPre := ok.2.2.1
    dlyHold := ok.2.2.2.1
    dlyPost := ok.2.2.2.2.1
    nbitRange := ok.2.2.2.2.2
    wcntRange := ⟨h.wcntRange.1, fun e => absurd e hs'.1⟩
    dcntRange := ⟨h.dcntRange.1, fun e => absurd e hs'.1, fun e => absurd e hs'.2.1⟩
    bitresTag := h.bitresTag
    scan := fun e => absurd e hs'.2.2
    overflow := h.overflow }

/-- States in which the transmit registers rest. -/
def restState (st : SeqState) : Prop := st = .idle ∨ st = .rxWait ∨ st = .rxHigh ∨ st = .decScan

theorem transmitOk_rest {c : Config} {r : Regs} (h : r.Inv c) (hr : restState r.st) (st : SeqState)
    (hs : restState st) : TransmitOk c st r.clockOut r.nbit r.dly := by
  have hck : r.clockOut = true := by
    cases hk : r.clockOut
    · have := h.clockLow.1 hk; rcases hr with e | e | e | e <;> rw [e] at this <;> cases this
    · rfl
  have hd : r.dly = 0 := by
    apply h.dlyZero <;> rcases hr with e | e | e | e <;> rw [e] <;> decide
  have hn := h.nbitRange.1
  unfold TransmitOk
  rw [hck, hd]
  rcases hs with e | e | e | e <;> subst e <;> simp [hn]

/-- An update of the counters, the result and `OP` that leaves the stream alone, between rest states, keeps the
invariant if the new values meet items 4 and 9 to 11. -/
theorem inv_receive_update {c : Config} {r : Regs} (h : r.Inv c) (hr : restState r.st) (st : SeqState)
    (op : BitVec 2) (wcnt dcnt : BitVec 32) (bitres : Tag) (hs : st = .idle ∨ st = .rxWait ∨ st = .rxHigh)
    (ho : r.seqClosed = false ↔ (op = opRseq ∧ (st = .rxWait ∨ st = .rxHigh)))
    (hw : wcnt.toNat ≤ c.deadline ∧ (st = .rxWait → wcnt.toNat ≤ c.deadline - 1))
    (hd : dcnt.toNat ≤ c.tNoiseHigh + 1 ∧ (st = .rxWait → dcnt = 0) ∧ (st = .rxHigh → 1 ≤ dcnt.toNat))
    (hb : bitres ≠ .start) :
    ({ r with st := st, op := op, wcnt := wcnt, dcnt := dcnt, bitres := bitres } : Regs).Inv c := by
  have ok := transmitOk_rest h hr st (by rcases hs with e | e | e <;> simp [restState, e])
  exact {
    seqSize := h.seqSize
    startMarker := h.startMarker
    lenRange := h.lenRange
    openIff := ho
    closedShape := h.closedShape
    openShape := h.openShape
    clockLow := ok.1
    dlyZero := ok.2.1
    dlyPre := ok.2.2.1
    dlyHold := ok.2.2.2.1
    dlyPost := ok.2.2.2.2.1
    nbitRange := ok.2.2.2.2.2
    wcntRange := hw
    dcntRange := hd
    bitresTag := hb
    scan := fun e => by rcases hs with e' | e' | e' <;> rw [e'] at e <;> cases e
    overflow := h.overflow }

/-- An update of the stream registers in or into a receive state or `IDLE`, keeps the invariant if the new values meet
items 2 to 5 and 13. -/
theorem inv_stream_update {c : Config} {r : Regs} (h : r.Inv c) (hr : restState r.st) (st : SeqState)
    (seq : Memory) (len : BitVec 6) (closed ovf : Bool) (hs : st = .idle ∨ st = .rxWait ∨ st = .rxHigh)
    (op : BitVec 2) (wcnt dcnt : BitVec 32) (bitres : Tag)
    (hsz : Memory.wf c.seqDepth seq = true) (h0 : seq[0]? = some .start)
    (hl : 1 ≤ len.toNat ∧ len.toNat ≤ c.seqDepth ∧ (closed = false → len.toNat ≤ c.seqDepth - 1))
    (ho : closed = false ↔ (op = opRseq ∧ (st = .rxWait ∨ st = .rxHigh)))
    (hc : closed = true → 2 ≤ len.toNat ∧ seq[len.toNat - 1]? = some .timeout ∧
      ∀ i, 1 ≤ i → i ≤ len.toNat - 2 → ∃ t, seq[i]? = some t ∧ isPulseTag t = true)
    (hop : closed = false → ∀ i, 1 ≤ i → i ≤ len.toNat - 1 → ∃ t, seq[i]? = some t ∧ isPulseTag t = true)
    (hv : ovf = true → c.seqDepth - 1 ≤ len.toNat)
    (hw : wcnt.toNat ≤ c.deadline ∧ (st = .rxWait → wcnt.toNat ≤ c.deadline - 1))
    (hd : dcnt.toNat ≤ c.tNoiseHigh + 1 ∧ (st = .rxWait → dcnt = 0) ∧ (st = .rxHigh → 1 ≤ dcnt.toNat))
    (hb : bitres ≠ .start) :
    ({ r with
        st := st, op := op, wcnt := wcnt, dcnt := dcnt, bitres := bitres, seq := seq, len := len, seqClosed := closed,
        seqOvf := ovf } : Regs).Inv c := by
  have ok := transmitOk_rest h hr st (by rcases hs with e | e | e <;> simp [restState, e])
  exact {
    seqSize := hsz
    startMarker := h0
    lenRange := hl
    openIff := ho
    closedShape := hc
    openShape := hop
    clockLow := ok.1
    dlyZero := ok.2.1
    dlyPre := ok.2.2.1
    dlyHold := ok.2.2.2.1
    dlyPost := ok.2.2.2.2.1
    nbitRange := ok.2.2.2.2.2
    wcntRange := hw
    dcntRange := hd
    bitresTag := hb
    scan := fun e => by rcases hs with e' | e' | e' <;> rw [e'] at e <;> cases e
    overflow := hv }

/-- An update of the decoder registers, in, into or out of the scan, keeps the invariant if the new values meet
item 12. -/
theorem inv_decode_update {c : Config} {r : Regs} (h : r.Inv c) (hr : r.st = .idle ∨ r.st = .decScan)
    (st : SeqState) (hs : st = .idle ∨ st = .decScan) (op : BitVec 2) (idx : BitVec 6) (acc : BitVec 32)
    (weight : BitVec 33)
    (hscan : let r' : Regs := { r with st := st, op := op, idx := idx, acc := acc, weight := weight }
      st = .decScan → idx.toNat ≤ r.len.toNat - 2 ∧
        weight.toNat = 2 ^ (r'.scanned.filter contributes).length ∧ acc.toNat < weight.toNat ∧
        (r'.scanned.filter contributes).length ≤ 32) :
    ({ r with st := st, op := op, idx := idx, acc := acc, weight := weight } : Regs).Inv c := by
  have hc : r.seqClosed = true :=
    closed_of_not_receiving h (fun ⟨_, e⟩ => by rcases hr with e' | e' <;> rw [e'] at e <;> simp at e)
  have ok := transmitOk_rest h (by rcases hr with e | e <;> simp [restState, e]) st
    (by rcases hs with e | e <;> simp [restState, e])
  exact {
    seqSize := h.seqSize
    startMarker := h.startMarker
    lenRange := h.lenRange
    openIff := ⟨fun ho => absurd (hc.symm.trans ho) (by decide),
      fun ⟨_, e⟩ => by simp only at e; rcases hs with e' | e' <;> rw [e'] at e <;> simp at e⟩
    closedShape := h.closedShape
    openShape := h.openShape
    clockLow := ok.1
    dlyZero := ok.2.1
    dlyPre := ok.2.2.1
    dlyHold := ok.2.2.2.1
    dlyPost := ok.2.2.2.2.1
    nbitRange := ok.2.2.2.2.2
    wcntRange := ⟨h.wcntRange.1, fun e => by simp only at e; rcases hs with e' | e' <;> rw [e'] at e <;> simp at e⟩
    dcntRange := ⟨h.dcntRange.1, fun e => by simp only at e; rcases hs with e' | e' <;> rw [e'] at e <;> simp at e,
      fun e => by simp only at e; rcases hs with e' | e' <;> rw [e'] at e <;> simp at e⟩
    bitresTag := h.bitresTag
    scan := hscan
    overflow := h.overflow }

end Sys2Proof.Laws
end

