-- ==== Sys2Proof/Laws/PerInstr.lean ====
section
/-!
SUPPORT. Facts about every instruction as syntax, one lemma per constructor.
-/

namespace Sys2Proof.Laws

/-- The family OpField: the word of an instruction holds its operation code in `cmd[9:8]` and its argument in
`cmd[7:0]` (30_encoding.md R80, R89). -/
def OpField.Statement (i : Instr) : Prop := cmdOp (encode i) = i.opcode ∧ cmdArg (encode i) = i.arg

theorem OpField.send (value : Byte) : OpField.Statement (.send value) := by
  refine ⟨?_, ?_⟩
  · show (opSend ++ value).extractLsb' 8 2 = opSend
    exact BitVec.extractLsb'_append_eq_left
  · show (opSend ++ value).extractLsb' 0 8 = value
    exact BitVec.extractLsb'_append_eq_right

theorem OpField.rbit : OpField.Statement .rbit := by constructor <;> decide

theorem OpField.rseq : OpField.Statement .rseq := by constructor <;> decide

theorem OpField.dec : OpField.Statement .dec := by constructor <;> decide

end Sys2Proof.Laws
end

