-- ==== Sys2Proof/Laws/Run.lean ====
section
/-!
SUPPORT. Runs of several edges: the premises on the samples of `DataIn` taken apart, and what the registers are while
a transmit state counts down, while a receiveBit waits and while it times a pulse.
-/

namespace Sys2Proof.Laws

open Sys2Proof.Machine

@[simp] theorem withInput_input (s : State) (i : Input) : (s.withInput i).input = i := by
  simp [State.withInput, State.input, State.inputAt]

theorem busy_iff (r : Regs) : r.busy = true ↔ r.st ≠ .idle := by simp [Regs.busy]

/-- The edge after `n` others, in a busy cycle without reset. -/
theorem edges_tick (s : State) (n : Nat) (hr : (s.inputAt n).rst = false) (hb : (edges n s).regs.st ≠ .idle) :
    (edges (n + 1) s).regs = edgeRegs s.cfg (edges n s).regs (s.inputAt n).din := by
  rw [edges_succ, edge_busy _ (by simpa [State.input] using hr) hb]
  simp [State.input]

theorem dinFrom_append (s : State) (n : Nat) (a b : List Bool) :
    s.DinFrom n (a ++ b) ↔ s.DinFrom n a ∧ s.DinFrom (n + a.length) b := by
  unfold State.DinFrom
  constructor
  · intro h
    refine ⟨fun j hj => ?_, fun j hj => ?_⟩
    · have := h j (by simp; omega)
      rwa [List.getElem?_append_left hj] at this
    · have := h (a.length + j) (by simp; omega)
      rw [List.getElem?_append_right (by omega)] at this
      rwa [Nat.add_sub_cancel_left, ← Nat.add_assoc] at this
  · intro ⟨h1, h2⟩ j hj
    by_cases hl : j < a.length
    · rw [List.getElem?_append_left hl]; exact h1 j hl
    · rw [List.getElem?_append_right (by omega)]
      have := h2 (j - a.length) (by simp at hj; omega)
      rwa [show n + a.length + (j - a.length) = n + j by omega] at this

theorem dinFrom_replicate (s : State) (n m : Nat) (b : Bool) (h : s.DinFrom n (List.replicate m b)) (j : Nat)
    (hj : j < m) : (s.inputAt (n + j)).din = b := by
  have := h j (by simpa using hj)
  rw [List.getElem?_replicate, if_pos hj] at this
  exact (Option.some.inj this).symm

/-- A timed transmit state with `DLY = m` counts down and changes nothing else for `m − 1` edges. -/
theorem count_run (s : State) (n m : Nat) (r : Regs) (st : SeqState)
    (hst : st = .txPre ∨ st = .txLow ∨ st = .txHigh ∨ st = .txPost) (hm : m < 2 ^ 31)
    (h : (edges n s).regs = { r with st := st, dly := ticks m }) (hr : ∀ k, k < n + m → (s.inputAt k).rst = false)
    (j : Nat) (hj : j < m) : (edges (n + j) s).regs = { r with st := st, dly := ticks (m - j) } := by
  induction j with
  | zero => simpa using h
  | succ j ih =>
    have ih := ih (by omega)
    rw [← Nat.add_assoc, edges_tick s (n + j) (hr _ (by omega))
      (by rw [ih]; rcases hst with e | e | e | e <;> simp [e]), ih]
    have h1 : ticks (m - j) ≠ 1 := by
      intro e
      have := congrArg BitVec.toNat e
      rw [ticks_toNat _ (by omega)] at this
      simp at this
      omega
    have h2 : ticks (m - j) - 1 = ticks (m - (j + 1)) := by
      apply BitVec.eq_of_toNat_eq
      rw [ticks_toNat _ (by omega)]
      have := ticks_toNat (m - j) (by omega)
      bv_omega
    rcases hst with e | e | e | e <;> subst e <;>
      simp only [edgeRegs, edgeTxPre, edgeTxLow, edgeTxHigh, edgeTxPost, if_neg h1, countDown, h2]

/-- `g` deasserted samples that do not reach the deadline only count. -/
theorem wait_run (s : State) (n g w : Nat) (r : Regs)
    (h : (edges n s).regs = { r with st := .rxWait, wcnt := ticks w }) (hD : s.cfg.deadline < 2 ^ 31)
    (hg : w + g + 1 ≤ s.cfg.deadline) (hr : ∀ k, k < n + g → (s.inputAt k).rst = false)
    (hd : ∀ j, j < g → (s.inputAt (n + j)).din = false) (j : Nat) (hj : j ≤ g) :
    (edges (n + j) s).regs = { r with st := .rxWait, wcnt := ticks (w + j) } := by
  induction j with
  | zero => exact h
  | succ j ih =>
    have ih := ih (by omega)
    rw [← Nat.add_assoc, edges_tick s (n + j) (hr _ (by omega)) (by rw [ih]; simp), ih, hd j (by omega)]
    have ht := ticks_toNat (w + j) (by omega)
    have : ticks (w + j) + 1 = ticks (w + (j + 1)) := by
      apply BitVec.eq_of_toNat_eq
      rw [ticks_toNat _ (by omega)]
      bv_omega
    simp only [edgeRegs]
    rw [edgeRxWait_wait]
    · simpa using this
    · simp only [ht]; omega

/-- Asserted samples in `RX_HIGH` only count, up to `T_NOISE_HIGH + 1`. -/
theorem high_run (s : State) (hv : s.cfg.Valid) (n m d : Nat) (r : Regs)
    (h : (edges n s).regs = { r with st := .rxHigh, dcnt := ticks (min d (s.cfg.tNoiseHigh + 1)) })
    (hr : ∀ k, k < n + m → (s.inputAt k).rst = false) (hd : ∀ j, j < m → (s.inputAt (n + j)).din = true) (j : Nat)
    (hj : j ≤ m) :
    (edges (n + j) s).regs = { r with st := .rxHigh, dcnt := ticks (min (d + j) (s.cfg.tNoiseHigh + 1)) } := by
  obtain ⟨-, -, -, -, ⟨-, -, -, hN⟩, -, -⟩ := hv
  induction j with
  | zero => exact h
  | succ j ih =>
    have ih := ih (by omega)
    rw [← Nat.add_assoc, edges_tick s (n + j) (hr _ (by omega)) (by rw [ih]; simp), ih, hd j (by omega)]
    simp only [edgeRegs]
    rw [edgeRxHigh_count]
    have : countHigh s.cfg (ticks (min (d + j) (s.cfg.tNoiseHigh + 1))) =
        ticks (min (d + (j + 1)) (s.cfg.tNoiseHigh + 1)) := by
      unfold countHigh
      rw [ticks_toNat _ (by omega)]
      congr 1
      omega
    simp [this]

/-- One more digit at the least significant end. -/
theorem digitsValue_snoc (xs : List Tag) (b : Tag) : digitsValue (xs ++ [b]) = 2 * digitsValue xs + bitOf b := by
  induction xs with
  | nil => simp [digitsValue]
  | cons x xs ih =>
    simp only [List.cons_append, digitsValue, ih, List.length_append, List.length_singleton]
    ring

/-- `c` digits write a number below `2^c`. -/
theorem digitsValue_lt (xs : List Tag) : digitsValue xs < 2 ^ xs.length := by
  induction xs with
  | nil => simp [digitsValue]
  | cons x xs ih =>
    simp only [digitsValue, List.length_cons, pow_succ]
    have : bitOf x ≤ 1 := by unfold bitOf; split <;> omega
    nlinarith

end Sys2Proof.Laws
end

