-- ==== Sys2Proof/Tests/Slice0.lean ====
section
/-!
SUPPORT. Small tests, each about one step, with expected values from the tables and vectors of the spec; and for every
statement with hypotheses a witness: a concrete state and operands that meet all of them together.
-/

namespace Sys2Proof.Tests

open Sys2Proof.Machine Sys2Proof.Laws

/-! ### Helpers -/

/-- A state in cycle 0. -/
def mk (c : Config) (r : Regs) (is : List Input) : State := { cfg := c, regs := r, inputs := is, cycle := 0 }

/-- The reset state of `CFG_TEST` with its first inputs. -/
def start (is : List Input) : State := mk Config.test (Regs.reset Config.test) is

/-- An input without command and reset. -/
def quiet (din : Bool) : Input := { rst := false, cmdValid := false, cmd := 0, din := din, raddr := 0 }

/-- An input that presents a command word. -/
def give (w : CmdWord) : Input := { rst := false, cmdValid := true, cmd := w, din := false, raddr := 0 }

/-- An input with `rst = 1`. -/
def resetting : Input := { rst := true, cmdValid := true, cmd := 0x300, din := true, raddr := 0 }

/-- A configuration with every parameter small and a buffer of four elements (the depth of V-RSEQ-9 to V-RSEQ-11). -/
def tiny : Config where
  tickHz := 1
  tPre := 1
  tHold := 1
  tPost := 1
  tNoiseLow := 1
  tMid := 1
  tNoiseHigh := 2
  deadline := 2
  seqDepth := 4

/-- The registers one step on, where the step answers a next state. -/
def after (s : State) : Option Regs :=
  match step s with
  | .next t => some t.regs
  | .fault _ => none
  | .refused _ => none

/-- The part of the invariant about the stream, its quantifiers bounded. -/
abbrev StreamFinite (c : Config) (r : Regs) : Prop :=
  Memory.wf c.seqDepth r.seq = true ∧ r.seq[0]? = some .start ∧
  (1 ≤ r.len.toNat ∧ r.len.toNat ≤ c.seqDepth ∧ (r.seqClosed = false → r.len.toNat ≤ c.seqDepth - 1)) ∧
  (r.seqClosed = false ↔ (r.op = opRseq ∧ (r.st = .rxWait ∨ r.st = .rxHigh))) ∧
  (r.seqClosed = true → 2 ≤ r.len.toNat ∧ r.seq[r.len.toNat - 1]? = some .timeout ∧
    ∀ i, i ≤ r.len.toNat - 2 → 1 ≤ i → r.seq[i]?.any isPulseTag = true) ∧
  (r.seqClosed = false → ∀ i, i ≤ r.len.toNat - 1 → 1 ≤ i → r.seq[i]?.any isPulseTag = true)

/-- The rest of the invariant. -/
abbrev RestFinite (c : Config) (r : Regs) : Prop :=
  (r.wcnt.toNat ≤ c.deadline ∧ (r.st = .rxWait → r.wcnt.toNat ≤ c.deadline - 1)) ∧
  (r.dcnt.toNat ≤ c.tNoiseHigh + 1 ∧ (r.st = .rxWait → r.dcnt = 0) ∧ (r.st = .rxHigh → 1 ≤ r.dcnt.toNat)) ∧
  r.bitres ≠ .start ∧
  (r.st = .decScan →
    r.idx.toNat ≤ r.len.toNat - 2 ∧ r.weight.toNat = 2 ^ (r.scanned.filter contributes).length ∧
      r.acc.toNat < r.weight.toNat ∧ (r.scanned.filter contributes).length ≤ 32) ∧
  (r.seqOvf = true → c.seqDepth - 1 ≤ r.len.toNat)

theorem inv_of_finite (c : Config) (r : Regs) (is : List Input) (hv : c.Valid) (hs : StreamFinite c r)
    (ht : TransmitOk c r.st r.clockOut r.nbit r.dly) (hr : RestFinite c r) : (mk c r is).Inv := by
  obtain ⟨hs, h0, hl, ho, hc, hop⟩ := hs
  obtain ⟨hw, hd, hb, hsc, hov⟩ := hr
  have any : ∀ i : Nat, r.seq[i]?.any isPulseTag = true → ∃ t, r.seq[i]? = some t ∧ isPulseTag t = true := by
    intro i hi
    cases hg : r.seq[i]? with
    | none => rw [hg] at hi; simp at hi
    | some t => rw [hg] at hi; exact ⟨t, rfl, by simpa using hi⟩
  exact ⟨hv, {
    seqSize := hs
    startMarker := h0
    lenRange := hl
    openIff := ho
    closedShape := fun e => ⟨(hc e).1, (hc e).2.1, fun i h1 h2 => any i ((hc e).2.2 i h2 h1)⟩
    openShape := fun e i h1 h2 => any i (hop e i h2 h1)
    clockLow := ht.1
    dlyZero := ht.2.1
    dlyPre := ht.2.2.1
    dlyHold := ht.2.2.2.1
    dlyPost := ht.2.2.2.2.1
    nbitRange := ht.2.2.2.2.2
    wcntRange := hw
    dcntRange := hd
    bitresTag := hb
    scan := hsc
    overflow := hov }⟩

/-- The idle registers of `tiny`. -/
def idleRegs : Regs := Regs.reset tiny

/-- In a pulse of an `RBIT`. -/
def pulseRegs : Regs := { idleRegs with st := .rxHigh, op := 1, dcnt := 1 }

/-- In the first pulse of an `RSEQ`, the buffer empty. -/
def streamRegs : Regs := { idleRegs with st := .rxHigh, op := 2, dcnt := 1, len := 1, seqClosed := false }

/-- In a pulse of an `RSEQ`, the buffer full: no element but the terminator has room. -/
def fullRegs : Regs :=
  { idleRegs with
    st := .rxHigh, op := 2, dcnt := 3, len := 3, seqClosed := false, seq := [.start, .one, .zero, .timeout] }

/-- At the last sample before the deadline of an `RSEQ` that holds one element. -/
def lastWaitRegs : Regs :=
  { idleRegs with
    st := .rxWait, op := 2, wcnt := 1, len := 2, seqClosed := false, seq := [.start, .one, .timeout, .timeout] }

/-- At the first element, a `ONE`, of a scan. -/
def scanRegs : Regs :=
  { idleRegs with st := .decScan, op := 3, len := 4, idx := 2, seq := [.start, .zero, .one, .timeout] }

/-- At the end of that scan. -/
def scanEndRegs : Regs := { scanRegs with idx := 0, acc := 1, weight := 4 }

/-- In `TX_HIGH` of the last bit, the hold at its end. -/
def lastHighRegs : Regs := { idleRegs with st := .txHigh, dly := 1 }

theorem inv_idle (is : List Input) : (mk tiny idleRegs is).Inv :=
  inv_of_finite _ _ _ (by decide) (by decide) (by unfold TransmitOk; decide) (by decide)
theorem inv_pulse (is : List Input) : (mk tiny pulseRegs is).Inv :=
  inv_of_finite _ _ _ (by decide) (by decide) (by unfold TransmitOk; decide) (by decide)
theorem inv_stream (is : List Input) : (mk tiny streamRegs is).Inv :=
  inv_of_finite _ _ _ (by decide) (by decide) (by unfold TransmitOk; decide) (by decide)
theorem inv_full (is : List Input) : (mk tiny fullRegs is).Inv :=
  inv_of_finite _ _ _ (by decide) (by decide) (by unfold TransmitOk; decide) (by decide)
theorem inv_lastWait (is : List Input) : (mk tiny lastWaitRegs is).Inv :=
  inv_of_finite _ _ _ (by decide) (by decide) (by unfold TransmitOk; decide) (by decide)
theorem inv_scan (is : List Input) : (mk tiny scanRegs is).Inv :=
  inv_of_finite _ _ _ (by decide) (by decide) (by unfold TransmitOk; decide) (by decide)
theorem inv_scanEnd (is : List Input) : (mk tiny scanEndRegs is).Inv :=
  inv_of_finite _ _ _ (by decide) (by decide) (by unfold TransmitOk; decide) (by decide)
theorem inv_lastHigh (is : List Input) : (mk tiny lastHighRegs is).Inv :=
  inv_of_finite _ _ _ (by decide) (by decide) (by unfold TransmitOk; decide) (by decide)

/-! ### Encoding: words written out from 30_encoding.md R80, R81 -/

/-- `00 10100101`, V-ENC-2. -/
theorem test_decode_send : decodeTableWord 10 0b0010100101 = some (.send 0xA5) := by decide
/-- `01 00000000` and `01 11111111`, V-ENC-4, V-ENC-5. -/
theorem test_decode_rbit :
    decodeTableWord 10 0b0100000000 = some .rbit ∧ decodeTableWord 16 0b0111111111 = some .rbit := by decide
/-- `10 00000000` and `10 10101011`, V-ENC-6, V-ENC-7. -/
theorem test_decode_rseq :
    decodeTableWord 10 0b1000000000 = some .rseq ∧ decodeTableWord 16 0b1010101011 = some .rseq := by decide
/-- `11 00000000` and `11 11111111`, V-ENC-8, V-ENC-9. -/
theorem test_decode_dec :
    decodeTableWord 10 0b1100000000 = some .dec ∧ decodeTableWord 16 0b1111111111 = some .dec := by decide
/-- A number of eleven bits is no command word (30_encoding.md R80). -/
theorem test_decode_too_long : decodeNat 0b10000000000 = .error .notTenBits := by decide
/-- The words of 30_encoding.md R89. -/
theorem test_encode :
    encode (.send 0xA5) = 0x0A5#10 ∧ encode .rbit = 0x100#10 ∧ encode .rseq = 0x200#10 ∧ encode .dec = 0x300#10 := by
  decide
/-- Every instruction is well formed (30_encoding.md R85). -/
theorem test_wellFormed :
    (Instr.send 0xFF).wellFormed = true ∧ Instr.rbit.wellFormed = true ∧ Instr.rseq.wellFormed = true ∧
      Instr.dec.wellFormed = true := by decide
/-- The one ill-formed term of the spec: a line `SEND 256` (30_encoding.md R89). -/
theorem test_ill_formed_line :
    (AsmLine.send 256).wellFormed = false ∧ (AsmLine.send 255).wellFormed = true ∧ assemble [.send 256] = none := by
  decide
/-- The program of PRG-1 as text, in the three number forms, and `RVAL` (30_encoding.md R89, R90). -/
theorem test_assembleText :
    assembleText ["SEND 0xA5 ; one byte".toList, "".toList, "SEND 165".toList, "SEND 0b10100101".toList,
      "RVAL".toList] = some [0x0A5#10, 0x0A5#10, 0x0A5#10, 0x200#10, 0x300#10] := by decide
/-- The disassembler ignores `cmd[7:0]` of `RBIT` (30_encoding.md R89). -/
theorem test_disassemble :
    disassemble 0x1FF#10 = "RBIT".toList ∧ disassemble 0x0A5#10 = "SEND 0xA5".toList := by decide

/-! ### The next command comes from the port -/

theorem test_fetch_send :
    after (State.reset.withFetchWord 10 0x0A5) = some (commanded (.send 0xA5) (State.reset.withFetchWord 10 0x0A5)).regs := by decide
theorem test_fetch_rbit :
    after (State.reset.withFetchWord 10 0x100) = some (commanded .rbit (State.reset.withFetchWord 10 0x100)).regs := by decide
theorem test_fetch_rseq :
    after (State.reset.withFetchWord 10 0x200) = some (commanded .rseq (State.reset.withFetchWord 10 0x200)).regs := by decide
theorem test_fetch_dec :
    after (State.reset.withFetchWord 10 0x300) = some (commanded .dec (State.reset.withFetchWord 10 0x300)).regs := by decide

/-! ### One step -/

/-- V-SEND-3, cycle 1 (40_send.md R100). -/
theorem test_send_accept :
    (after (start [give 0x0A5])).map (fun r => (r.st, r.sh, r.nbit, r.dly, r.dataOut)) =
      some (.txPre, 0xA5, 8, 3, false) := by decide
/-- PRG-8: the first `load_bit` of `SEND 0xA5` leaves `SH = 0x4A`, `NBIT = 7` and `DataOut = 1`. -/
theorem test_send_first_bit :
    (after (mk Config.test { Regs.reset Config.test with st := .txPre, sh := 0xA5, nbit := 8, dly := 1 }
      [quiet false])).map (fun r => (r.st, r.sh, r.nbit, r.dataOut)) = some (.txData, 0x4A, 7, true) := by decide
/-- V-RBIT-5: a pulse of `T_MID` samples is a `ONE`. -/
theorem test_rbit_tie :
    (after (mk Config.test { Regs.reset Config.test with st := .rxHigh, op := 1, dcnt := 4 } [quiet false])).map
      (fun r => (r.st, r.bitres, r.dcnt)) = some (.idle, .one, 4) := by decide
/-- V-RBIT-10: a rise at the last sample before the deadline is taken. -/
theorem test_rbit_last_sample :
    (after (mk Config.test { Regs.reset Config.test with st := .rxWait, op := 1, wcnt := 49 } [quiet true])).map
      (fun r => (r.st, r.bitres, r.dcnt, r.wcnt)) = some (.rxHigh, .timeout, 1, 49) := by decide
/-- V-RD-8: STATUS in the first cycle of an `RSEQ`. -/
theorem test_rseq_accept : (after (start [give 0x200])).map status = some 0x00002609 := by decide
/-- V-RSEQ-10: the third pulse finds the buffer of four full. -/
theorem test_rseq_drop :
    (after (mk { Config.test with seqDepth := 4 }
      { Regs.reset { Config.test with seqDepth := 4 } with
        st := .rxHigh, op := 2, dcnt := 3, len := 3, seqClosed := false, seq := [.start, .one, .zero, .timeout] }
      [quiet false])).map (fun r => (r.st, r.seq, r.len, r.seqOvf)) =
      some (.rxWait, [.start, .one, .zero, .timeout], 3, true) := by decide
/-- PRG-6: a `DEC` from reset scans from index 0. -/
theorem test_dec_accept :
    (after (start [give 0x300])).map (fun r => (r.st, r.idx, r.acc, r.weight)) = some (.decScan, 0, 0, 1) := by decide
/-- PRG-3: the last element of the scan, a `ONE` at weight 4 over 1, gives 5 and weight 8. -/
theorem test_dec_scan :
    (after (mk tiny { scanRegs with idx := 2, acc := 1, weight := 4 } [quiet false])).map
      (fun r => (r.st, r.idx, r.acc, r.weight)) = some (.decScan, 1, 5, 8) := by decide
/-- V-RD-11. -/
theorem test_reset : (after (mk tiny fullRegs [resetting])).map status = some 0x0000000A := by decide
/-- V-RD-1 to V-RD-7. -/
theorem test_read_reset :
    [0x00, 0x01, 0x02, 0x03, 0x04, 0x05, 0x7F, 0x80, 0x81, 0xA1, 0xA2, 0xFF].map
      (fun a => readPort Config.test (Regs.reset Config.test) a) = [0x0A, 3, 0, 2, 0, 0, 0, 4, 3, 3, 0, 0] := by decide
/-- V-RD-10: STATUS in `TX_LOW`. -/
theorem test_status_low :
    status { Regs.reset Config.test with st := .txLow, clockOut := false, dataOut := true } = 0x00000313 := by decide
/-- The driver issues a command in an idle cycle and none while busy (30_encoding.md R91). -/
theorem test_driver :
    (driverInput [0x100] (start [quiet false]) true).cmdValid = true ∧
      (driverInput [0x100] (mk tiny pulseRegs [quiet false]) true).cmdValid = false := by decide

/-! ### Witnesses: hypotheses that can be met -/

theorem witness_ResetStateValues :
    Config.test.Valid ∧ (Config.docMs 1 1 1).Valid ∧ tiny.Valid ∧ (start [resetting]).input.rst = true ∧
      (start [give 0x300, quiet false]).regs = Regs.reset (start [give 0x300, quiet false]).cfg ∧
      (start [give 0x300, quiet false]).Presents .dec ∧ (start [give 0x300, quiet false]).NoReset 2 := by decide

theorem witness_ResetOverridesEverything :
    (∀ k, k ≤ 0 → ((start [resetting]).inputAt k).rst = true) ∧
      (∀ k, k ≤ 1 → ((start [resetting, resetting, give 0x100]).inputAt k).rst = true) ∧
      (edges 2 (start [resetting, resetting, give 0x100])).Presents .rbit ∧
      ((mk tiny pulseRegs [quiet true]).input.rst = false ∧ (mk tiny pulseRegs [quiet true]).input.din = true) ∧
      ((mk tiny lastWaitRegs [quiet false]).regs.op = opRseq ∧
        (mk tiny lastWaitRegs [quiet false]).input.rst = false) := by decide

theorem witness_ResetOverridesEverything_step :
    step (mk tiny lastWaitRegs [quiet false]) = .next (edge (mk tiny lastWaitRegs [quiet false])) := step_eq_next _

theorem witness_StepRunsPresentedCommand :
    (Instr.send 0xFF).wellFormed = true ∧ (start [give 0x0FF]).regs.st = .idle ∧
      (start [give 0x0FF]).Presents (.send 0xFF) := by decide

theorem witness_AcceptanceInIdle :
    (start [give 0x100]).regs.st = .idle ∧
      ((start [give 0x100]).input.rst = false ∧ (start [give 0x100]).input.cmdValid = true) ∧
      ((start [quiet true]).input.rst = false ∧ (start [quiet true]).input.cmdValid = false) ∧
      (start [resetting]).input.rst = true := by decide

theorem witness_SendAccepted : (start [give 0x0A5]).regs.st = .idle := by decide
theorem witness_RbitAccepted : (start [give 0x100]).regs.st = .idle := by decide
theorem witness_RseqAccepted :
    (start [give 0x200]).regs.st = .idle ∧ 0 < (start [give 0x200]).regs.seq.length := by decide
theorem witness_DecAccepted :
    (mk tiny idleRegs [give 0x300]).regs.st = .idle ∧ 2 ≤ (mk tiny idleRegs [give 0x300]).regs.len.toNat ∧
      (mk tiny idleRegs [give 0x300]).Inv := ⟨by decide, by decide, inv_idle _⟩

theorem witness_BusyIgnoresCommand :
    let s := mk tiny pulseRegs [give 0x300, give 0x300]
    s.regs.busy = true ∧ s.NoReset 2 ∧
      (∀ k, k ≤ 1 → (s.inputAt k).cmdValid = true ∧ (s.inputAt k).cmd = 0x300) ∧
      stepN 1 s = .next (edges 1 s) ∧ (edges 1 s).outputs.cmdReady = true :=
  ⟨by decide, by decide, by decide, stepN_eq_next _ _, by decide⟩

theorem witness_CommandFrames (i : Instr) : exec i (start []) = .next (commanded i (start [])) := exec_eq_next i _

theorem witness_OnlyExaminedInputsMatter :
    ((start []).regs.st = .idle ∧ (quiet true).rst = (quiet false).rst ∧
      (quiet true).cmdValid = (quiet false).cmdValid) ∧
    ((mk tiny pulseRegs []).regs.st = .rxHigh ∧ (give 0x100).rst = (quiet false).rst ∧
      (give 0x100).din = (quiet false).din) ∧
    ((mk tiny scanRegs []).regs.st = .decScan ∧ (give 0x100).rst = (quiet true).rst) := by decide

theorem witness_DecodeEncodeAgree : (Instr.send 0x80).wellFormed = true := by decide
theorem witness_DecodeByOpcodeAlone : decodeCmd 0x0FF#10 = .send 0xFF ∧ 0x0FF#10 &&& 0x300#10 = 0x000#10 := by decide
theorem witness_AssemblerWords :
    255 ≤ 255 ∧ 255 < 256 ∧ assemble [.send 255] = some [0x0FF#10] ∧ assemble [.rval] = some [0x200#10, 0x300#10] := by
  decide

theorem witness_TxPreEdge :
    let s := mk tiny { idleRegs with st := .txPre, sh := 0x80, nbit := 8, dly := 1 } [quiet false]
    let t := mk Config.test { idleRegs with st := .txPre, sh := 0x80, nbit := 8, dly := 3 } [quiet false]
    (s.regs.st = .txPre ∧ s.input.rst = false ∧ s.regs.dly = 1) ∧
      (t.regs.st = .txPre ∧ t.input.rst = false ∧ t.regs.dly ≠ 1) := by decide

theorem witness_TxDataEdge :
    (mk tiny { idleRegs with st := .txData } [quiet false]).regs.st = .txData ∧
      (mk tiny { idleRegs with st := .txData } [quiet false]).input.rst = false := by decide

theorem witness_TxDataEdge_entry :
    let s := mk tiny { idleRegs with st := .txPre, nbit := 8, dly := 1 } [quiet false]
    s.Inv ∧ s.regs.st ≠ .txData ∧ step s = .next (edge s) ∧ (edge s).regs.st = .txData :=
  ⟨inv_of_finite _ _ _ (by decide) (by decide) (by unfold TransmitOk; decide) (by decide), by decide, step_eq_next _, by decide⟩

theorem witness_TxHoldEdges :
    (mk tiny lastHighRegs [quiet false]).input.rst = false ∧ (mk tiny lastHighRegs [quiet false]).regs.st = .txHigh ∧
      (mk tiny { idleRegs with st := .txLow, clockOut := false, dly := 1 } []).regs.st = .txLow ∧
      (mk tiny { idleRegs with st := .txPost, dly := 1 } []).regs.st = .txPost := by decide

/-- The first and the last cycle of the frame. -/
theorem witness_SendWaveform :
    let s := mk tiny idleRegs (give 0x0A5 :: List.replicate 26 (quiet true))
    s.Inv ∧ s.regs.st = .idle ∧ s.Presents (.send 0xA5) ∧ s.NoReset (sendCycles s.cfg + 1) ∧
      sendCycles s.cfg = 26 ∧ 1 ≤ 1 ∧ 27 ≤ sendCycles s.cfg + 1 :=
  ⟨inv_idle _, by decide, by decide, by decide, by decide, by decide, by decide⟩

theorem witness_SendCompletes :
    let s := mk tiny idleRegs (give 0x000 :: List.replicate 26 (quiet false))
    s.Inv ∧ s.regs.st = .idle ∧ s.Presents (.send 0x00) ∧ s.NoReset (sendCycles s.cfg + 1) :=
  ⟨inv_idle _, by decide, by decide, by decide⟩

theorem witness_RxWaitEdge :
    let r : Regs := { idleRegs with st := .rxWait, op := 1 }
    let s := mk tiny r [quiet true]
    let t := mk tiny r [quiet false]
    let u := mk tiny { r with wcnt := 1 } [quiet false]
    (s.regs.st = .rxWait ∧ s.input.rst = false ∧ s.input.din = true) ∧
      (t.input.din = false ∧ t.regs.wcnt.toNat + 1 ≠ t.cfg.deadline) ∧
      (u.input.din = false ∧ u.regs.wcnt.toNat + 1 = u.cfg.deadline) := by decide

/-- The first position, the last one, and silence. -/
theorem witness_AssertedSampleWins :
    let r : Regs := { idleRegs with st := .rxWait, op := 1 }
    let s := mk tiny r [quiet true]
    let t := mk tiny r [quiet false, quiet true]
    let u := mk tiny r [quiet false, quiet false]
    tiny.Valid ∧ r.st = .rxWait ∧ r.wcnt = 0 ∧
      (0 < tiny.deadline ∧ s.NoReset 1 ∧ s.DinFrom 0 (List.replicate 0 false ++ [true])) ∧
      (1 < tiny.deadline ∧ t.NoReset 2 ∧ t.DinFrom 0 (List.replicate 1 false ++ [true])) ∧
      (u.NoReset tiny.deadline ∧ u.DinFrom 0 (List.replicate tiny.deadline false)) := by decide

theorem witness_RxHighEdge :
    tiny.Valid ∧ (mk tiny pulseRegs [quiet true]).regs.st = .rxHigh ∧
      ((mk tiny pulseRegs [quiet true]).input.rst = false ∧ (mk tiny pulseRegs [quiet true]).input.din = true) ∧
      ((mk tiny pulseRegs [quiet false]).input.rst = false ∧ (mk tiny pulseRegs [quiet false]).input.din = false) := by
  decide

/-- Every case of `classify` at its boundaries (41_rbit.md R128), and a configuration without a `ZERO` (V-RBIT-16). -/
theorem witness_ClassifyCases :
    let one := { Config.test with tNoiseLow := 3, tMid := 3, tNoiseHigh := 3 }
    Config.test.Valid ∧ one.Valid ∧ one.tMid = one.tNoiseHigh ∧
      classify Config.test 1 = .noise ∧ classify Config.test 2 = .one ∧ classify Config.test 4 = .one ∧
      classify Config.test 5 = .zero ∧ classify Config.test 10 = .zero ∧ classify Config.test 11 = .noise := by decide

theorem witness_ClassifyBoundaries : Config.test.Valid ∧ tiny.Valid ∧ (Config.docMs 1 1 1).Valid := by decide

theorem witness_RbitTimesOut :
    let s := mk tiny idleRegs [give 0x100, quiet false, quiet false]
    s.cfg.Valid ∧ s.regs.st = .idle ∧ s.Presents .rbit ∧ s.NoReset (s.cfg.deadline + 1) ∧
      s.DinFrom 1 (List.replicate s.cfg.deadline false) := by decide

/-- The least and the greatest gap, each with the least pulse. -/
theorem witness_RbitMeasuresPulse :
    let s := mk tiny idleRegs [give 0x100, quiet true, quiet false]
    let t := mk tiny idleRegs [give 0x100, quiet false, quiet true, quiet false]
    tiny.Valid ∧ idleRegs.st = .idle ∧
      (s.Presents .rbit ∧ 0 + 1 ≤ tiny.deadline ∧ s.NoReset (0 + 1 + 2) ∧
        s.DinFrom 1 (List.replicate 0 false ++ List.replicate 1 true ++ [false])) ∧
      (t.Presents .rbit ∧ 1 + 1 ≤ tiny.deadline ∧ t.NoReset (1 + 1 + 2) ∧
        t.DinFrom 1 (List.replicate 1 false ++ List.replicate 1 true ++ [false])) := by decide

theorem witness_HighLineHangs :
    let s := mk tiny pulseRegs [quiet true, give 0x300, resetting]
    let u := mk tiny pulseRegs [quiet true, quiet true, resetting]
    s.Inv ∧ s.regs.st = .rxHigh ∧ s.NoReset 1 ∧ s.DinFrom 0 (List.replicate 1 true) ∧
      u.NoReset 2 ∧ u.DinFrom 0 (List.replicate 2 true) ∧ (u.inputAt 2).rst = true :=
  ⟨inv_pulse _, by decide, by decide, by decide, by decide, by decide, by decide⟩

/-- With room and without. -/
theorem witness_RseqStoresPulse :
    let s := mk tiny streamRegs [quiet false]
    let t := mk tiny fullRegs [quiet false]
    (s.Inv ∧ s.regs.st = .rxHigh ∧ s.regs.op = opRseq ∧ s.input.rst = false ∧ s.input.din = false ∧
      s.regs.len.toNat < s.cfg.seqDepth - 1) ∧
    (t.Inv ∧ t.regs.st = .rxHigh ∧ t.regs.op = opRseq ∧ t.input.rst = false ∧ t.input.din = false ∧
      ¬ t.regs.len.toNat < t.cfg.seqDepth - 1) :=
  ⟨⟨inv_stream _, by decide, by decide, by decide, by decide, by decide⟩,
    ⟨inv_full _, by decide, by decide, by decide, by decide, by decide⟩⟩

theorem witness_RseqEndsByTimeout :
    let s := mk tiny lastWaitRegs [quiet false]
    s.Inv ∧ s.regs.st = .rxWait ∧ s.regs.op = opRseq ∧ s.input.rst = false ∧ step s = .next (edge s) ∧
      (edge s).regs.st = .idle :=
  ⟨inv_lastWait _, by decide, by decide, by decide, step_eq_next _, by decide⟩

theorem witness_RseqOnSilentLine :
    let s := mk tiny idleRegs [give 0x200, quiet false, quiet false]
    s.cfg.Valid ∧ Memory.wf s.cfg.seqDepth s.regs.seq = true ∧ s.regs.st = .idle ∧ s.Presents .rseq ∧
      s.NoReset (s.cfg.deadline + 1) ∧ s.DinFrom 1 (List.replicate s.cfg.deadline false) := by decide

/-- An `RSEQ` accepted in the idle state of `tiny`, then the samples. -/
def streamStart (bits : List Bool) : State := mk tiny idleRegs (give 0x200 :: bits.map quiet)

/-- No pulse; one pulse; three pulses, one more than the buffer of four keeps, at the least and the greatest gaps. -/
theorem witness_RseqAssemblesStream :
    let three : Pulses := [(1, 1), (2, 2), (1, 3)]
    tiny.Valid ∧ Memory.wf tiny.seqDepth idleRegs.seq = true ∧ idleRegs.st = .idle ∧
      (streamStart (streamSamples 2 [])).Presents .rseq ∧ WellFormedPulses 2 [] ∧
      (streamStart (streamSamples 2 [])).NoReset ((streamSamples 2 []).length + 1) ∧
      (streamStart (streamSamples 2 [])).DinFrom 1 (streamSamples 2 []) ∧
      (streamStart (streamSamples 2 three)).Presents .rseq ∧ WellFormedPulses 2 three ∧
      (streamStart (streamSamples 2 three)).NoReset ((streamSamples 2 three).length + 1) ∧
      (streamStart (streamSamples 2 three)).DinFrom 1 (streamSamples 2 three) ∧
      tiny.seqDepth - 2 < three.length :=
  ⟨by decide, by decide, by decide, by decide, trivial, by decide, by decide, by decide,
    ⟨by decide, by decide, by decide⟩, by decide, by decide, by decide⟩

theorem witness_EndlessStreamNeverEnds :
    let one : Pulses := [(0, 1)]
    let three : Pulses := [(1, 1), (2, 2), (1, 3)]
    tiny.Valid ∧ Memory.wf tiny.seqDepth idleRegs.seq = true ∧ idleRegs.st = .idle ∧
      (streamStart (pulseSamples one ++ [false])).Presents .rseq ∧ one ≠ [] ∧ WellFormedPulses 2 one ∧
      (streamStart (pulseSamples one ++ [false])).NoReset ((pulseSamples one).length + 2) ∧
      (streamStart (pulseSamples one ++ [false])).DinFrom 1 (pulseSamples one ++ [false]) ∧
      (streamStart (pulseSamples three ++ [false])).Presents .rseq ∧ three ≠ [] ∧ WellFormedPulses 2 three ∧
      (streamStart (pulseSamples three ++ [false])).NoReset ((pulseSamples three).length + 2) ∧
      (streamStart (pulseSamples three ++ [false])).DinFrom 1 (pulseSamples three ++ [false]) :=
  ⟨by decide, by decide, by decide, by decide, by decide, ⟨by decide, by decide, by decide⟩, by decide, by decide,
    by decide, by decide, ⟨by decide, by decide, by decide⟩, by decide, by decide⟩

/-- The stop, a `ONE`, a `ZERO` and a skipped element. -/
theorem witness_DecScanEdge :
    let s := mk tiny scanRegs [quiet false]
    let z := mk tiny { scanRegs with idx := 1 } [quiet false]
    let n := mk tiny { scanRegs with seq := [.start, .zero, .noise, .timeout] } [quiet false]
    let e := mk tiny scanEndRegs [quiet false]
    (s.regs.st = .decScan ∧ s.input.rst = false ∧ s.regs.idx ≠ 0 ∧ s.regs.seq[s.regs.idx.toNat]? = some .one) ∧
      (z.regs.idx ≠ 0 ∧ z.regs.seq[z.regs.idx.toNat]? = some .zero) ∧
      (n.regs.idx ≠ 0 ∧ n.regs.seq[n.regs.idx.toNat]? = some .noise) ∧ e.regs.idx = 0 := by decide

/-- The shortest stream and the longest that `tiny` holds. -/
theorem witness_DecReconstructsValue :
    let s := mk tiny idleRegs [give 0x300, quiet false]
    let t := mk tiny { scanRegs with st := .idle } [give 0x300, quiet false, quiet true, quiet false]
    (s.Inv ∧ s.regs.st = .idle ∧ s.Presents .dec ∧ s.NoReset s.regs.len.toNat ∧ s.regs.len = 2) ∧
      (t.Inv ∧ t.regs.st = .idle ∧ t.Presents .dec ∧ t.NoReset t.regs.len.toNat ∧ t.regs.len = 4) :=
  ⟨⟨inv_idle _, by decide, by decide, by decide, by decide⟩,
    ⟨inv_of_finite _ _ _ (by decide) (by decide) (by unfold TransmitOk; decide) (by decide), by decide, by decide, by decide, by decide⟩⟩

/-- No element, and the bits of V-DEC-9. -/
theorem witness_MonotonicWeighting :
    (∀ e ∈ ([] : List Tag), contributes e = true) ∧
      (∀ e ∈ [Tag.one, .zero, .one, .zero, .zero, .one, .zero, .one], contributes e = true) := by decide

theorem witness_NoiseAndZerosInDecode : ∀ e ∈ [Tag.noise, .noise], contributes e = false := by decide

/-- A scanned `ONE`, `ZERO` and `NOISE`; the `ZERO` at the last index before the stop. -/
theorem witness_ScanArithmeticIsExact :
    let s := mk tiny scanRegs [quiet false]
    let z := mk tiny { scanRegs with idx := 1, acc := 1, weight := 2 } [quiet false]
    let n := mk tiny { scanRegs with seq := [.start, .zero, .noise, .timeout] } [quiet false]
    (s.Inv ∧ s.regs.st = .decScan ∧ s.regs.idx ≠ 0 ∧ s.input.rst = false ∧
      s.regs.seq[s.regs.idx.toNat]? = some .one ∧ step s = .next (edge s)) ∧
    (z.Inv ∧ z.regs.st = .decScan ∧ z.regs.idx ≠ 0 ∧ z.input.rst = false ∧
      z.regs.seq[z.regs.idx.toNat]? = some .zero ∧ contributes .zero = true ∧ step z = .next (edge z)) ∧
    (n.Inv ∧ n.regs.st = .decScan ∧ n.regs.idx ≠ 0 ∧ n.input.rst = false ∧
      n.regs.seq[n.regs.idx.toNat]? = some .noise ∧ contributes .noise = false ∧ step n = .next (edge n)) :=
  ⟨⟨inv_scan _, by decide, by decide, by decide, by decide, step_eq_next _⟩,
    ⟨inv_of_finite _ _ _ (by decide) (by decide) (by unfold TransmitOk; decide) (by decide), by decide, by decide,
      by decide, by decide, by decide, step_eq_next _⟩,
    ⟨inv_of_finite _ _ _ (by decide) (by decide) (by unfold TransmitOk; decide) (by decide), by decide, by decide,
      by decide, by decide, by decide, step_eq_next _⟩⟩

theorem witness_OutputsFromState :
    (quiet true).raddr = (give 0x100).raddr ∧ step (start [quiet true]) = .next (edge (start [quiet true])) :=
  ⟨by decide, step_eq_next _⟩

/-- The first and the last address of every range of the table. -/
theorem witness_HostReadSpace :
    tiny.Valid ∧ Memory.wf tiny.seqDepth idleRegs.seq = true ∧
      (0x05 ≤ (0x05 : Byte).toNat ∧ (0x7F : Byte).toNat ≤ 0x7F) ∧ (0 < tiny.seqDepth ∧ 3 < tiny.seqDepth) ∧
      (tiny.seqDepth ≤ 4 ∧ 127 ≤ 127) := by decide

theorem witness_TransitionTable : (start [quiet false]).input.rst = false := by decide

theorem witness_SequencerFrames :
    let s := mk tiny lastHighRegs [quiet false]
    let t := mk tiny pulseRegs [quiet false]
    let u := mk tiny scanRegs [quiet false]
    (s.regs.st = .txHigh ∧ s.input.rst = false ∧ step s = .next (edge s)) ∧
      (t.regs.st = .rxHigh ∧ t.input.rst = false ∧ step t = .next (edge t) ∧ t.regs.op ≠ opRseq) ∧
      (u.regs.st = .decScan ∧ u.input.rst = false ∧ step u = .next (edge u)) :=
  ⟨⟨by decide, by decide, step_eq_next _⟩, ⟨by decide, by decide, step_eq_next _, by decide⟩,
    ⟨by decide, by decide, step_eq_next _⟩⟩

/-- A fall and a rise of `ClockOut`, and a change of `DataOut`. -/
theorem witness_PinsChangeOnlyInFrame :
    let s := mk tiny { idleRegs with st := .txData } [quiet false]
    let u := mk tiny { idleRegs with st := .txLow, clockOut := false, dly := 1 } [quiet false]
    let v := mk tiny { idleRegs with st := .txPre, sh := 0x80, nbit := 8, dly := 1 } [quiet false]
    (s.input.rst = false ∧ step s = .next (edge s) ∧ (edge s).regs.clockOut ≠ s.regs.clockOut) ∧
      (u.input.rst = false ∧ step u = .next (edge u) ∧ (edge u).regs.clockOut ≠ u.regs.clockOut) ∧
      (v.input.rst = false ∧ step v = .next (edge v) ∧ (edge v).regs.dataOut ≠ v.regs.dataOut) :=
  ⟨⟨by decide, step_eq_next _, by decide⟩, ⟨by decide, step_eq_next _, by decide⟩,
    ⟨by decide, step_eq_next _, by decide⟩⟩

theorem witness_OnlyRseqWritesStream :
    let s := start [give 0x100]
    let t := mk tiny streamRegs [quiet false]
    (s.input.rst = false ∧ step s = .next (edge s) ∧
      ¬ (s.regs.st = .idle ∧ s.input.cmdValid = true ∧ cmdOp s.input.cmd = opRseq) ∧
      ¬ ((s.regs.st = .rxWait ∨ s.regs.st = .rxHigh) ∧ s.regs.op = opRseq) ∧
      1 ≠ (if s.regs.st = .idle then 0 else s.regs.len.toNat)) ∧
      (t.input.rst = false ∧ step t = .next (edge t) ∧
        0 ≠ (if t.regs.st = .idle then 0 else t.regs.len.toNat)) :=
  ⟨⟨by decide, step_eq_next _, by decide, by decide, by decide⟩, ⟨by decide, step_eq_next _, by decide⟩⟩

/-- `BITRES` changes at the end of a pulse and at the deadline (in the second from `ONE` to `TIMEOUT`). -/
theorem witness_OpBitresAccWriters :
    let s := start [give 0x100]
    let t := mk tiny fullRegs [quiet false]
    let w := mk tiny { lastWaitRegs with bitres := .one } [quiet false]
    let u := mk tiny scanRegs [quiet false]
    (s.input.rst = false ∧ step s = .next (edge s) ∧ (edge s).regs.op ≠ s.regs.op) ∧
      (t.input.rst = false ∧ step t = .next (edge t) ∧ (edge t).regs.bitres ≠ t.regs.bitres) ∧
      (w.input.rst = false ∧ step w = .next (edge w) ∧ (edge w).regs.bitres ≠ w.regs.bitres) ∧
      (u.input.rst = false ∧ step u = .next (edge u) ∧ (edge u).regs.acc ≠ u.regs.acc) :=
  ⟨⟨by decide, step_eq_next _, by decide⟩, ⟨by decide, step_eq_next _, by decide⟩,
    ⟨by decide, step_eq_next _, by decide⟩, ⟨by decide, step_eq_next _, by decide⟩⟩

theorem witness_ResetHasInvariant :
    (start []).cfg.Valid ∧ (start []).regs = Regs.reset (start []).cfg := by decide

theorem witness_StepKeepsInvariant :
    let s := mk tiny lastWaitRegs [quiet false]
    let t := mk tiny scanEndRegs [quiet false]
    (s.Inv ∧ step s = .next (edge s)) ∧ (t.Inv ∧ step t = .next (edge t)) :=
  ⟨⟨inv_lastWait _, step_eq_next _⟩, ⟨inv_scanEnd _, step_eq_next _⟩⟩

theorem witness_IndicesInRange :
    let s := mk tiny scanRegs []
    let t := mk tiny fullRegs []
    let u := mk tiny idleRegs []
    (s.Inv ∧ s.regs.st = .decScan ∧ s.regs.idx ≠ 0) ∧ (t.Inv ∧ t.regs.seqClosed = false) ∧
      (u.Inv ∧ u.regs.st = .idle) :=
  ⟨⟨inv_scan _, by decide, by decide⟩, ⟨inv_full _, by decide⟩, ⟨inv_idle _, by decide⟩⟩

theorem witness_DriverIssuesBackToBack :
    (start []).regs.st = .idle ∧ (mk tiny pulseRegs []).regs.busy = true := by decide

end Sys2Proof.Tests
end

section
/-!
PROOFS. The statements about the state and the host interface (10_state.md): the reset values, the outputs, the host
read space and the fields of STATUS.
-/

namespace Sys2Proof.Proofs

open Sys2Proof.Machine Sys2Proof.Laws

/-! ### The reset state -/

/-- A buffer of at least one element has the start marker first after reset. -/
theorem reset_seq_start (c : Config) (h : 0 < c.seqDepth) : (Regs.reset c).seq[0]? = some .start :=
  getElem?_memWrite_same _ 0 .start (by simpa using h)

/-- Every other element of the buffer is `TIMEOUT` after reset. -/
theorem reset_seq_rest (c : Config) (i : Nat) (h1 : 1 ≤ i) (hi : i < c.seqDepth) :
    (Regs.reset c).seq[i]? = some .timeout :=
  (getElem?_memWrite_other _ 0 i .start (by omega)).trans (by simp [hi])

/-- The registers after an accepted `DEC` (43_dec.md R155). -/
theorem edge_dec_regs (s : State) (hst : s.regs.st = .idle) (hp : s.Presents .dec) :
    (edge s).regs =
      { s.regs with op := opDec, acc := 0, weight := 1, idx := s.regs.len - 2, st := .decScan } := by
  obtain ⟨hr, hv, hd⟩ := hp
  rw [edge_command s hr hst hv, hd]
  simp [commanded, accept_idle s _ _ hst, acceptDec]

/-- A `DEC` of a stream of two elements, the start marker and the terminator, ends at the edge after its acceptance
with the accumulator still 0 (43_dec.md R156). -/
theorem edges_dec_empty_stream (s : State) (hst : s.regs.st = .idle) (hlen : s.regs.len = 2) (hp : s.Presents .dec)
    (hr : (s.inputAt 1).rst = false) :
    (edges 2 s).regs = { s.regs with op := opDec, acc := 0, weight := 1, idx := 0, st := .idle } := by
  have haccept : (edges 1 s).regs =
      { s.regs with op := opDec, acc := 0, weight := 1, idx := 0, st := .decScan } := by
    rw [edges, edges, edge_dec_regs s hst hp, hlen]
    rfl
  rw [edges_tick s 1 hr (by simp [haccept]), haccept, edgeRegs, edgeDecScan_stop _ _ rfl]

/-- Settles O1: the values are those that `Regs.reset` lists; an edge under reset is `edge_reset`; a `DEC` from reset
finds `LEN = 2`, the stream without elements. -/
theorem resetStateValues : Obligations.ResetStateValues := by
  refine ⟨fun c hc => ?_, rfl, fun s hr => ?_, fun s hc hs hp hn => ?_⟩
  · obtain ⟨-, -, -, -, -, -, hdepth, -⟩ := hc
    exact ⟨rfl, rfl, rfl, rfl, rfl, rfl, rfl, rfl, rfl, rfl, by simpa [Memory.wf] using reset_seq_wf c,
      reset_seq_start c (by omega), reset_seq_rest c, rfl, rfl, rfl, rfl, rfl, rfl⟩
  · exact ⟨edge s, step_eq_next s, by simp [edge_reset s hr]⟩
  · have hend := edges_dec_empty_stream s (by rw [hs]; rfl) (by rw [hs]; rfl) hp (hn 1 (by omega))
    exact ⟨edges 2 s, stepN_eq_next 2 s, by rw [hend], by rw [hend]⟩

/-! ### The outputs -/

/-- With the input of the cycle replaced, the outputs see the read address of the new input and nothing else of it. -/
theorem withInput_outputs (s : State) (i : Input) :
    (s.withInput i).outputs =
      { cmdReady := s.regs.st == .idle, clockOut := s.regs.clockOut, dataOut := s.regs.dataOut,
        rdata := readPort s.cfg s.regs i.raddr } := by
  simp only [State.outputs, withInput_input]
  rfl

/-- Settles O41: the first two clauses say what `State.outputs` reads; for the third, an edge keeps the configuration
and moves on to the next cycle's input. -/
theorem outputsFromState : Obligations.OutputsFromState := by
  refine ⟨fun s => rfl, fun s i j h => ?_, fun s t h => ?_⟩
  · rw [withInput_outputs, withInput_outputs, h]
  · obtain rfl : edge s = t := by simpa [step_eq_next] using h
    have hinput : (edge s).input = s.inputAt 1 := edge_inputAt s 0
    exact ⟨rfl, rfl, by rw [← hinput, ← edge_cfg s]; rfl⟩

/-! ### The host read space -/

/-- Above the five registers the read space holds the window of the sequence buffer and nothing else. -/
theorem readPort_above_registers (c : Config) (r : Regs) (a : Byte) (h : 0x05 ≤ a.toNat) :
    readPort c r a =
      if 0x80 ≤ a.toNat ∧ a.toNat - 0x80 < c.seqDepth then (tagCode (memRead r.seq (a.toNat - 0x80))).setWidth 32
      else 0 := by
  have hne (b : Byte) (hb : b.toNat < 0x05) : a ≠ b := by rintro rfl; omega
  rw [readPort, if_neg (hne _ (by decide)), if_neg (hne _ (by decide)), if_neg (hne _ (by decide)),
    if_neg (hne _ (by decide)), if_neg (hne _ (by decide))]

/-- No address between the registers and the window is in the table. -/
theorem readPort_gap (c : Config) (r : Regs) (a : Byte) (h : 0x05 ≤ a.toNat) (h' : a.toNat ≤ 0x7F) :
    readPort c r a = 0 := by
  rw [readPort_above_registers c r a h, if_neg (by omega)]

/-- The upper half of the read space: the elements of the buffer in order, then 0. -/
theorem readPort_upper_half (c : Config) (r : Regs) (i : Nat) (h : i ≤ 127) :
    readPort c r (BitVec.ofNat 8 (0x80 + i)) =
      if i < c.seqDepth then (tagCode (memRead r.seq i)).setWidth 32 else 0 := by
  have ha : (BitVec.ofNat 8 (0x80 + i)).toNat = 0x80 + i := by rw [BitVec.toNat_ofNat]; omega
  rw [readPort_above_registers c r _ (by omega), ha, Nat.add_sub_cancel_left]
  simp

@[simp] theorem withInput_cfg (s : State) (i : Input) : (s.withInput i).cfg = s.cfg := rfl
@[simp] theorem withInput_regs (s : State) (i : Input) : (s.withInput i).regs = s.regs := rfl

/-- The end of the cycle discards its input. -/
@[simp] theorem withInput_advance (s : State) (i : Input) : (s.withInput i).advance = s.advance := rfl

theorem setRegs_withInput (s : State) (i : Input) (r : Regs) :
    (s.withInput i).setRegs r = (s.setRegs r).withInput i := rfl

theorem accept_withInput (s : State) (i : Input) (op : BitVec 2) (writes : Config → Regs → Regs) :
    (s.withInput i).accept op writes = (s.accept op writes).withInput i := by
  by_cases h : s.regs.st = .idle
  · rw [accept_idle s _ _ h, accept_idle (s.withInput i) _ _ h]; rfl
  · rw [accept_busy s _ _ h, accept_busy (s.withInput i) _ _ h]

/-- What a command does depends on the registers, not on the input beside it. -/
theorem commanded_withInput (s : State) (i : Input) (cmd : Instr) :
    commanded cmd (s.withInput i) = (commanded cmd s).withInput i := by
  cases cmd <;> exact accept_withInput s i _ _

/-- What an edge reads of the input of its cycle: `rst`, `cmd_valid`, `cmd` and `data_in`. -/
theorem edge_withInput (s : State) (i : Input) :
    edge (s.withInput i) =
      if i.rst = true then s.resetEdge.advance
      else if s.regs.st = .idle ∧ i.cmdValid = true then (commanded (decodeCmd i.cmd) s).advance
      else (s.setRegs (edgeRegs s.cfg s.regs i.din)).advance := by
  rcases edge_cases (s.withInput i) with ⟨hr, h⟩ | ⟨hr, hst, hv, h⟩ | ⟨hr, hq, h⟩ <;>
    rw [withInput_input] at hr <;> rw [h]
  · rw [if_pos hr]; rfl
  · rw [withInput_input] at hv ⊢
    rw [if_neg (by simp [hr]), if_pos ⟨hst, hv⟩, commanded_withInput, withInput_advance]
  · rw [withInput_input] at hq
    have hnone : ¬ (s.regs.st = .idle ∧ i.cmdValid = true) := by
      rintro ⟨hst, hv⟩
      exact hq.elim (· hst) (by simp [hv])
    rw [if_neg (by simp [hr]), if_neg hnone, State.tick, setRegs_withInput, withInput_advance, withInput_input,
      withInput_cfg, withInput_regs]

/-- Settles O42: the five registers by their addresses, the rest by `readPort_gap` and `readPort_upper_half`; a read
has no effect since no edge looks at `raddr` (`edge_withInput`). -/
theorem hostReadSpace : Obligations.HostReadSpace := by
  refine ⟨fun c r hc hseq => ⟨rfl, rfl, rfl, rfl, rfl, readPort_gap c r, fun i hi => ?_, fun i hi h => ?_⟩,
    fun s i a => ?_⟩
  · obtain ⟨-, -, -, -, -, -, -, hdepth⟩ := hc
    have hlen : i < r.seq.length := by simp only [Memory.wf, beq_iff_eq] at hseq; omega
    exact ⟨r.seq[i], List.getElem?_eq_getElem hlen,
      by rw [readPort_upper_half c r i (by omega), if_pos hi, memRead_eq_getElem _ _ hlen]⟩
  · rw [readPort_upper_half c r i h, if_neg (by omega)]
  · rw [step_eq_next, step_eq_next, edge_withInput, edge_withInput]

/-! ### STATUS -/

theorem busy_eq_decide (r : Regs) : r.busy = decide (r.st ≠ .idle) :=
  Bool.eq_iff_iff.2 (by simp [busy_iff])

/-- The five one-bit fields of STATUS (10_state.md R41). -/
theorem status_bits (r : Regs) :
    (status r).getLsbD 0 = r.busy ∧ (status r).getLsbD 1 = r.seqClosed ∧ (status r).getLsbD 2 = r.seqOvf ∧
    (status r).getLsbD 3 = r.clockOut ∧ (status r).getLsbD 4 = r.dataOut := by
  simp only [status, BitVec.getLsbD_append]
  simp

/-- The fields of STATUS of more than one bit (10_state.md R41). -/
theorem status_fields (r : Regs) :
    (status r).extractLsb' 5 3 = 0 ∧ (status r).extractLsb' 8 4 = stateCode r.st ∧
    (status r).extractLsb' 12 2 = r.op ∧ (status r).extractLsb' 14 18 = 0 := by
  simp (disch := decide) only [status, BitVec.extractLsb'_append_eq_of_le]
  exact ⟨BitVec.extractLsb'_append_eq_right, BitVec.extractLsb'_append_eq_right, BitVec.extractLsb'_append_eq_right,
    by decide⟩

/-- STATUS after reset: `SEQ_CLOSED` and `CLOCK_OUT` are 1 and every other field is 0. -/
theorem status_reset (c : Config) : status (Regs.reset c) = 0x0000000A := by
  simp only [status, Regs.busy, Regs.reset, stateCode]
  decide

/-- Settles O43: the fields one by one; STATUS after reset is the same closed word in every configuration. -/
theorem statusFields : Obligations.StatusFields := by
  refine ⟨fun r => ?_, status_reset, rfl, rfl⟩
  obtain ⟨hbusy, hclosed, hovf, hclock, hdata⟩ := status_bits r
  exact ⟨hbusy.trans (busy_eq_decide r), hclosed, hovf, hclock, hdata, status_fields r⟩

end Sys2Proof.Proofs
end

section
/-!
PROOFS. The statements about the command word and its acceptance (30_encoding.md): the fields and the four patterns of
a word, acceptance in `IDLE`, and the command port of a busy block.
-/

namespace Sys2Proof.Proofs

open Sys2Proof.Machine Sys2Proof.Laws

/-! ### The command word (30_encoding.md R80, R81) -/

/-- A command word is its operation code followed by its argument. -/
theorem cmdOp_append_cmdArg (w : CmdWord) : cmdOp w ++ cmdArg w = w :=
  (BitVec.extractLsb'_append_extractLsb'_eq_extractLsb' rfl).trans BitVec.extractLsb'_eq_self

/-- The mask of the table keeps the operation code and clears the argument. -/
theorem and_mask_eq (w : CmdWord) : w &&& 0x300#10 = cmdOp w ++ 0#8 := by
  have hmask : 0x300#10 = BitVec.allOnes 2 ++ 0#8 := rfl
  conv_lhs => rw [← cmdOp_append_cmdArg w, hmask, BitVec.and_append, BitVec.and_allOnes, BitVec.and_zero]

/-- All that the decoder can answer. -/
theorem decodeCmd_cases (w : CmdWord) :
    (cmdOp w = opSend ∧ decodeCmd w = .send (cmdArg w)) ∨ (cmdOp w = opRbit ∧ decodeCmd w = .rbit) ∨
    (cmdOp w = opRseq ∧ decodeCmd w = .rseq) ∨ (cmdOp w = opDec ∧ decodeCmd w = .dec) := by
  have hcover : ∀ op : BitVec 2, op = opSend ∨ op = opRbit ∨ op = opRseq ∨ op = opDec := by decide
  rcases hcover (cmdOp w) with h | h | h | h <;> simp [decodeCmd, h, opSend, opRbit, opRseq, opDec]

/-- The decoder reads the operation of `cmd[9:8]`. -/
@[simp] theorem opcode_decodeCmd (w : CmdWord) : (decodeCmd w).opcode = cmdOp w := by
  rcases decodeCmd_cases w with ⟨hop, hdec⟩ | ⟨hop, hdec⟩ | ⟨hop, hdec⟩ | ⟨hop, hdec⟩ <;> rw [hop, hdec] <;> rfl

/-- A word meets the match of an operation code exactly when it decodes to that operation. -/
theorem and_mask_eq_iff (w : CmdWord) (op : BitVec 2) :
    w &&& 0x300#10 = op ++ 0#8 ↔ (decodeCmd w).opcode = op := by
  rw [and_mask_eq, opcode_decodeCmd, BitVec.append_left_inj]

theorem opcode_eq_opSend_iff (i : Instr) : i.opcode = opSend ↔ ∃ v, i = .send v := by
  cases i <;> simp [Instr.opcode, opSend, opRbit, opRseq, opDec]

theorem opcode_eq_opRbit_iff (i : Instr) : i.opcode = opRbit ↔ i = .rbit := by
  cases i <;> simp [Instr.opcode, opSend, opRbit, opRseq, opDec]

theorem opcode_eq_opRseq_iff (i : Instr) : i.opcode = opRseq ↔ i = .rseq := by
  cases i <;> simp [Instr.opcode, opSend, opRbit, opRseq, opDec]

theorem opcode_eq_opDec_iff (i : Instr) : i.opcode = opDec ↔ i = .dec := by
  cases i <;> simp [Instr.opcode, opSend, opRbit, opRseq, opDec]

/-- The word of a `SEND` is its byte below the operation code 0. -/
theorem eq_append_of_decodeCmd_send (w : CmdWord) (v : Byte) (h : decodeCmd w = .send v) : w = opSend ++ v := by
  rcases decodeCmd_cases w with ⟨hop, hdec⟩ | ⟨-, hdec⟩ | ⟨-, hdec⟩ | ⟨-, hdec⟩ <;> rw [hdec] at h
  · rw [← hop, ← Instr.send.inj h, cmdOp_append_cmdArg]
  all_goals cases h

/-- Settles O14: under the mask a word is its operation code (`and_mask_eq_iff`), and the operation code names the
instruction. -/
theorem decodeByOpcodeAlone : Obligations.DecodeByOpcodeAlone := by
  refine fun w => ⟨(and_mask_eq_iff w opSend).trans (opcode_eq_opSend_iff _),
    (and_mask_eq_iff w opRbit).trans (opcode_eq_opRbit_iff _),
    (and_mask_eq_iff w opRseq).trans (opcode_eq_opRseq_iff _),
    (and_mask_eq_iff w opDec).trans (opcode_eq_opDec_iff _), fun v hv => ?_⟩
  rw [eq_append_of_decodeCmd_send w v hv, BitVec.toNat_append]
  simp [opSend]

/-! ### Acceptance in `IDLE` (30_encoding.md R83) -/

/-- An accepted command sets `OP` to its operation code. -/
theorem commanded_op (i : Instr) (s : State) (hst : s.regs.st = .idle) : (commanded i s).regs.op = i.opcode := by
  cases i <;> rw [commanded, accept_idle s _ _ hst] <;> rfl

/-- An accepted command leaves `IDLE`. -/
theorem commanded_busy (i : Instr) (s : State) (hst : s.regs.st = .idle) : (commanded i s).regs.busy = true := by
  cases i <;> rw [commanded, accept_idle s _ _ hst] <;> rfl

/-- A command that is presented without reset to an idle block is what the step runs. -/
theorem step_accepts (s : State) (hst : s.regs.st = .idle) (hr : s.input.rst = false)
    (hv : s.input.cmdValid = true) :
    step s = .next (commanded (decodeCmd s.input.cmd) s).advance := by
  rw [step_eq_next, edge_command s hr hst hv]

/-- In `IDLE` the sequencer's own edge changes nothing. -/
theorem tick_idle (s : State) (hst : s.regs.st = .idle) : s.tick = s := by
  rw [State.tick, edgeRegs, hst]
  rfl

/-- Settles O5: the three edges of an idle block are `step_accepts`, `edge_quiet` and `edge_reset`. -/
theorem acceptanceInIdle : Obligations.AcceptanceInIdle := by
  refine fun s hst => ⟨fun hr hv => ?_, fun hr hv => ?_, fun hr => ?_⟩
  · exact ⟨_, exec_eq_next _ s, step_accepts s hst hr hv, by rw [commanded_op _ s hst, opcode_decodeCmd],
      commanded_busy _ s hst⟩
  · rw [step_eq_next, edge_quiet s hr hv, tick_idle s hst]
  · rw [step_eq_next, edge_reset s hr]

/-! ### The command port of a busy block (30_encoding.md R84) -/

/-- What a busy edge reads of the input of its cycle: `rst` and `data_in`, not the command port. -/
theorem edge_withInput_busy (s : State) (i : Input) (hst : s.regs.st ≠ .idle) :
    edge (s.withInput i) =
      if i.rst = true then s.resetEdge.advance else (s.setRegs (edgeRegs s.cfg s.regs i.din)).advance := by
  rw [edge_withInput, if_neg (fun h : s.regs.st = .idle ∧ i.cmdValid = true => hst h.1)]

/-- A command presented to a busy block leaves the state as it is. -/
theorem commanded_of_busy (i : Instr) (s : State) (hst : s.regs.st ≠ .idle) : commanded i s = s := by
  cases i <;> exact accept_busy s _ _ hst

theorem cmdReady_iff (s : State) : s.outputs.cmdReady = true ↔ s.regs.st = .idle := by
  simp [State.outputs]

/-- Settles O10: a busy edge does not read the command port (`edge_withInput_busy`) and no command changes a busy
block (`commanded_of_busy`); a command still held when `cmd_ready` is 1 is one presented to an idle block. -/
theorem busyIgnoresCommand : Obligations.BusyIgnoresCommand := by
  refine ⟨fun s i v w hb => ?_, fun s i hb => ?_, fun n s t w hr hheld ht hready => ?_⟩
  · have hst := (busy_iff s.regs).1 hb
    rw [step_eq_next, step_eq_next, edge_withInput_busy s _ hst, edge_withInput_busy s _ hst]
  · rw [exec_eq_next, commanded_of_busy i s ((busy_iff s.regs).1 hb)]
  · obtain rfl : edges n s = t := by simpa [stepN_eq_next] using ht
    have hin : (edges n s).input = s.inputAt n := edges_inputAt n 0 s
    obtain ⟨hv, rfl⟩ := hheld n le_rfl
    have hstep := step_accepts (edges n s) ((cmdReady_iff _).1 hready) (by rw [hin]; exact hr n (by omega))
      (by rw [hin]; exact hv)
    rw [hin] at hstep
    exact ⟨_, exec_eq_next _ _, hstep⟩

end Sys2Proof.Proofs
end

section
/-!
PROOFS. The statements about the outbound encoder (40_send.md): the acceptance of `SEND`, and how `TX_DATA` is left
and entered.
-/

namespace Sys2Proof.Proofs

open Sys2Proof.Machine Sys2Proof.Laws

/-! ### Acceptance of `SEND` (40_send.md R100) -/

/-- Settles O6: in `IDLE` the command is accepted (`accept_idle`), and the writes are those of `acceptSend`. -/
theorem sendAccepted : Obligations.SendAccepted := by
  intro s value hst
  rw [exec_eq_next, commanded, accept_idle s _ _ hst]
  rfl

/-! ### The rules of the timed transmit states (40_send.md R101, R104 to R106) -/

theorem edgeTxPre_last (c : Config) (r : Regs) (h : r.dly = 1) : edgeTxPre c r = loadBit r := if_pos h

theorem edgeTxPre_count (c : Config) (r : Regs) (h : r.dly ≠ 1) : edgeTxPre c r = { r with dly := r.dly - 1 } :=
  if_neg h

theorem edgeTxLow_last (c : Config) (r : Regs) (h : r.dly = 1) :
    edgeTxLow c r = { r with clockOut := true, dly := ticks c.tHold, st := .txHigh } := if_pos h

theorem edgeTxLow_count (c : Config) (r : Regs) (h : r.dly ≠ 1) : edgeTxLow c r = { r with dly := r.dly - 1 } :=
  if_neg h

/-- The end of the last bit cell. -/
theorem edgeTxHigh_end (c : Config) (r : Regs) (h : r.dly = 1) (hn : r.nbit = 0) :
    edgeTxHigh c r = { r with dly := ticks c.tPost, st := .txPost } := by
  rw [edgeTxHigh, if_pos h, if_pos hn]

/-- The end of every other bit cell. -/
theorem edgeTxHigh_load (c : Config) (r : Regs) (h : r.dly = 1) (hn : r.nbit ≠ 0) : edgeTxHigh c r = loadBit r := by
  rw [edgeTxHigh, if_pos h, if_neg hn]

theorem edgeTxHigh_count (c : Config) (r : Regs) (h : r.dly ≠ 1) : edgeTxHigh c r = { r with dly := r.dly - 1 } :=
  if_neg h

theorem edgeTxPost_last (c : Config) (r : Regs) (h : r.dly = 1) :
    edgeTxPost c r = { r with dly := 0, st := .idle } := if_pos h

theorem edgeTxPost_count (c : Config) (r : Regs) (h : r.dly ≠ 1) : edgeTxPost c r = { r with dly := r.dly - 1 } :=
  if_neg h

/-! ### Which rules lead to `TX_DATA` (44_sequencing.md R150) -/

/-- `deliver` ends the receiveBit in `IDLE` or starts the next one. -/
theorem deliver_st (c : Config) (r : Regs) (t : Tag) :
    (deliver c r t).st = .idle ∨ (deliver c r t).st = .rxWait := by
  by_cases hop : r.op = opRseq
  · rw [deliver_rseq c r t hop]
    rcases append_cases c { r with bitres := t } t with ⟨-, h⟩ | ⟨-, -, h⟩ | ⟨-, -, h⟩ <;> rw [h]
    · exact .inl rfl
    · exact .inr rfl
    · exact .inr rfl
  · rw [deliver_single c r t hop]
    exact .inl rfl

theorem edgeRxWait_st (c : Config) (r : Regs) (din : Bool) (hst : r.st = .rxWait) :
    (edgeRxWait c r din).st = .idle ∨ (edgeRxWait c r din).st = .rxWait ∨ (edgeRxWait c r din).st = .rxHigh := by
  cases din with
  | true => rw [edgeRxWait_rise]; exact .inr (.inr rfl)
  | false =>
    by_cases hd : r.wcnt.toNat + 1 = c.deadline
    · rw [edgeRxWait_deadline c r hd]
      exact (deliver_st c _ .timeout).imp_right .inl
    · rw [edgeRxWait_wait c r hd]
      exact .inr (.inl hst)

theorem edgeRxHigh_st (c : Config) (r : Regs) (din : Bool) (hst : r.st = .rxHigh) :
    (edgeRxHigh c r din).st = .idle ∨ (edgeRxHigh c r din).st = .rxWait ∨ (edgeRxHigh c r din).st = .rxHigh := by
  cases din with
  | true => rw [edgeRxHigh_count]; exact .inr (.inr hst)
  | false => rw [edgeRxHigh_fall]; exact (deliver_st c r _).imp_right .inl

@[simp] theorem scanElement_st (r : Regs) (e : Tag) : (scanElement r e).st = r.st := by
  unfold scanElement
  split
  · rfl
  · split <;> rfl

theorem edgeDecScan_st (c : Config) (r : Regs) (hst : r.st = .decScan) :
    (edgeDecScan c r).st = .idle ∨ (edgeDecScan c r).st = .decScan := by
  by_cases hi : r.idx = 0
  · rw [edgeDecScan_stop c r hi]
    exact .inl rfl
  · rw [edgeDecScan, if_neg hi]
    exact .inr ((scanElement_st r _).trans hst)

/-- `load_bit` is the only action that leads to `TX_DATA` (40_send.md R101, R105). -/
theorem edgeRegs_eq_loadBit (c : Config) (r : Regs) (din : Bool) (hst : r.st ≠ .txData)
    (h : (edgeRegs c r din).st = .txData) :
    (r.st = .txPre ∨ r.st = .txHigh) ∧ edgeRegs c r din = loadBit r := by
  cases hr : r.st <;>
    simp only [edgeRegs, hr, reduceCtorEq, true_or, or_true, or_self, true_and, false_and] at h ⊢
  case txPre =>
    by_cases hd : r.dly = 1
    · exact edgeTxPre_last c r hd
    · rw [edgeTxPre_count c r hd] at h
      exact absurd h hst
  case txData => exact hst hr
  case txLow =>
    by_cases hd : r.dly = 1
    · rw [edgeTxLow_last c r hd] at h
      cases h
    · rw [edgeTxLow_count c r hd] at h
      exact hst h
  case txHigh =>
    by_cases hd : r.dly = 1
    · by_cases hn : r.nbit = 0
      · rw [edgeTxHigh_end c r hd hn] at h
        cases h
      · exact edgeTxHigh_load c r hd hn
    · rw [edgeTxHigh_count c r hd] at h
      exact absurd h hst
  case txPost =>
    by_cases hd : r.dly = 1
    · rw [edgeTxPost_last c r hd] at h
      cases h
    · rw [edgeTxPost_count c r hd] at h
      exact hst h
  case rxWait => rcases edgeRxWait_st c r din hr with e | e | e <;> simp [e] at h
  case rxHigh => rcases edgeRxHigh_st c r din hr with e | e | e <;> simp [e] at h
  case decScan => rcases edgeDecScan_st c r hr with e | e <;> simp [e] at h

/-- No command is accepted into `TX_DATA`. -/
theorem commanded_st_ne_txData (i : Instr) (s : State) (hst : s.regs.st = .idle) :
    (commanded i s).regs.st ≠ .txData := by
  cases i <;> rw [commanded, accept_idle s _ _ hst] <;> exact SeqState.noConfusion

/-- A step into `TX_DATA` is the action `load_bit` at the end of `TX_PRE` or of `TX_HIGH`. -/
theorem edge_eq_loadBit (s : State) (hst : s.regs.st ≠ .txData) (h : (edge s).regs.st = .txData) :
    (s.regs.st = .txPre ∨ s.regs.st = .txHigh) ∧ (edge s).regs = loadBit s.regs := by
  rcases edge_cases s with ⟨-, he⟩ | ⟨-, hidle, -, he⟩ | ⟨-, -, he⟩ <;> rw [he] at h ⊢
  · cases h
  · exact absurd h (commanded_st_ne_txData _ s hidle)
  · exact edgeRegs_eq_loadBit s.cfg s.regs s.input.din hst h

/-! ### `TX_DATA` (40_send.md R103) -/

theorem edgeRegs_txData (c : Config) (r : Regs) (din : Bool) (hst : r.st = .txData) :
    edgeRegs c r din = { r with clockOut := false, dly := ticks c.tHold, st := .txLow } := by
  rw [edgeRegs, hst]
  rfl

/-- Outside `TX_LOW` the pin `ClockOut` is asserted (10_state.md R51 item 6). -/
theorem clockOut_of_inv {c : Config} {r : Regs} (h : r.Inv c) (hst : r.st ≠ .txLow) : r.clockOut = true := by
  cases hk : r.clockOut with
  | false => exact absurd (h.clockLow.1 hk) hst
  | true => rfl

/-- Settles O18: the edge out of `TX_DATA` is its rule. The edge into it is `load_bit` (`edge_eq_loadBit`), which puts
`SH[7]` on `DataOut` and leaves `ClockOut` as it was in `TX_PRE` or `TX_HIGH`, asserted under the invariant. -/
theorem txDataEdge : Obligations.TxDataEdge := by
  refine ⟨fun s hst hr => ⟨edge s, step_eq_next s, ?_⟩, fun s t ⟨_, hinv⟩ hst hstep ht => ?_⟩
  · rw [edge_busy s hr (by simp [hst])]
    exact edgeRegs_txData s.cfg s.regs s.input.din hst
  · obtain rfl : edge s = t := by simpa [step_eq_next] using hstep
    obtain ⟨hsrc, hload⟩ := edge_eq_loadBit s hst ht
    have hhigh : s.regs.st ≠ .txLow := by rcases hsrc with e | e <;> simp [e]
    have hclock : s.regs.clockOut = true := clockOut_of_inv hinv hhigh
    rw [hload]
    exact ⟨hclock, rfl⟩

end Sys2Proof.Proofs
end

section
/-!
PROOFS. The statements about the inbound pulse classifier (41_rbit.md): the acceptance of `RBIT`, the classes of a
pulse, and the line that stays asserted.
-/

namespace Sys2Proof.Proofs

open Sys2Proof.Machine Sys2Proof.Laws

/-! ### Acceptance of `RBIT` (41_rbit.md R120) -/

/-- Settles O7: in `IDLE` the command is accepted (`accept_idle`), and the writes are those of `startReceive`, which
reads no sample. -/
theorem rbitAccepted : Obligations.RbitAccepted := by
  intro s hst
  rw [exec_eq_next, commanded, accept_idle s _ _ hst]
  rfl

/-! ### The classes of a pulse (41_rbit.md R123) -/

/-- All that `classify` can answer, each class with its range of durations. -/
theorem classify_cases (c : Config) (d : Nat) :
    ((d > c.tNoiseHigh ∨ d < c.tNoiseLow) ∧ classify c d = .noise) ∨
    ((c.tNoiseLow ≤ d ∧ d ≤ c.tNoiseHigh ∧ d ≤ c.tMid) ∧ classify c d = .one) ∨
    ((c.tNoiseLow ≤ d ∧ d ≤ c.tNoiseHigh ∧ c.tMid < d) ∧ classify c d = .zero) := by
  unfold classify
  by_cases hnoise : d > c.tNoiseHigh ∨ d < c.tNoiseLow
  · exact .inl ⟨hnoise, if_pos hnoise⟩
  · rw [if_neg hnoise]
    by_cases hmid : d ≤ c.tMid
    · exact .inr (.inl ⟨by omega, if_pos hmid⟩)
    · exact .inr (.inr ⟨by omega, if_neg hmid⟩)

theorem classify_eq_noise_iff (c : Config) (d : Nat) :
    classify c d = .noise ↔ (d > c.tNoiseHigh ∨ d < c.tNoiseLow) := by
  rcases classify_cases c d with ⟨hd, h⟩ | ⟨hd, h⟩ | ⟨hd, h⟩ <;>
    simp only [h, reduceCtorEq, true_iff, false_iff] <;> omega

theorem classify_eq_one_iff (c : Config) (hv : c.Valid) (d : Nat) :
    classify c d = .one ↔ (c.tNoiseLow ≤ d ∧ d ≤ c.tMid) := by
  obtain ⟨-, -, -, -, ⟨-, -, hmid, -⟩, -, -⟩ := hv
  rcases classify_cases c d with ⟨hd, h⟩ | ⟨hd, h⟩ | ⟨hd, h⟩ <;>
    simp only [h, reduceCtorEq, true_iff, false_iff] <;> omega

theorem classify_eq_zero_iff (c : Config) (hv : c.Valid) (d : Nat) :
    classify c d = .zero ↔ (c.tMid < d ∧ d ≤ c.tNoiseHigh) := by
  obtain ⟨-, -, -, -, ⟨-, hlow, -, -⟩, -, -⟩ := hv
  rcases classify_cases c d with ⟨hd, h⟩ | ⟨hd, h⟩ | ⟨hd, h⟩ <;>
    simp only [h, reduceCtorEq, true_iff, false_iff] <;> omega

/-- Settles O25: the three ranges are those of the `iff` lemmas above; that they cover every duration is
`classify_pulse`; the boundary claims are instances of them under the order of the thresholds. -/
theorem classifyCases : Obligations.ClassifyCases := by
  refine ⟨fun c hv d => ?_, by decide⟩
  have hone := classify_eq_one_iff c hv
  have hzero := classify_eq_zero_iff c hv d
  refine ⟨classify_eq_noise_iff c d, hone d, hzero, ?_, (hone c.tMid).2 ⟨?_, le_rfl⟩, fun heq h => ?_⟩
  · rcases classify_pulse c d with h | h | h <;> simp [h]
  · obtain ⟨-, -, -, -, ⟨-, hlow, -, -⟩, -, -⟩ := hv
    exact hlow
  · have hrange := hzero.1 h
    omega

/-! ### A line that stays asserted (41_rbit.md R127) -/

/-- Under the invariant the duration counter is at most its saturation bound, so saturating it changes nothing
(10_state.md R51 item 10). -/
theorem ticks_min_dcnt {c : Config} {r : Regs} (h : r.Inv c) :
    ticks (min r.dcnt.toNat (c.tNoiseHigh + 1)) = r.dcnt := by
  rw [Nat.min_eq_left h.dcntRange.1, ticks, BitVec.ofNat_toNat, BitVec.setWidth_eq]

/-- While the line stays asserted the pulse is timed and no other register moves. -/
theorem edges_high (s : State) (n : Nat) (hinv : s.Inv) (hst : s.regs.st = .rxHigh) (hr : s.NoReset n)
    (hd : s.DinFrom 0 (List.replicate n true)) :
    (edges n s).regs =
      { s.regs with dcnt := ticks (min (s.regs.dcnt.toNat + n) (s.cfg.tNoiseHigh + 1)) } := by
  obtain ⟨hv, hregs⟩ := hinv
  have hstart : (edges 0 s).regs =
      { s.regs with st := .rxHigh, dcnt := ticks (min s.regs.dcnt.toNat (s.cfg.tNoiseHigh + 1)) } := by
    rw [ticks_min_dcnt hregs, ← hst]
    rfl
  have hrun := high_run s hv 0 n s.regs.dcnt.toNat s.regs hstart (by simpa using hr)
    (dinFrom_replicate s 0 n true hd) n le_rfl
  rwa [Nat.zero_add, ← hst] at hrun

/-- The edge after `n` others, in a cycle with `rst = 1`. -/
theorem edges_reset (s : State) (n : Nat) (h : (s.inputAt n).rst = true) :
    (edges (n + 1) s).regs = Regs.reset s.cfg := by
  rw [edges_succ, edge_reset _ (by simpa [State.input] using h)]
  simp

/-- Settles O29: `RX_HIGH` only counts while the sample is asserted (`edges_high`), so the block stays busy; an edge
with `rst = 1` is `edges_reset`. -/
theorem highLineHangs : Obligations.HighLineHangs := by
  intro s n hinv hst hr hd
  have hrun := edges_high s n hinv hst hr hd
  refine ⟨edges n s, stepN_eq_next n s, hrun, ?_, fun hreset => ?_⟩
  · rw [hrun, busy_iff]
    simp [hst]
  · exact ⟨edges (n + 1) s, stepN_eq_next (n + 1) s, edges_reset s n hreset⟩

end Sys2Proof.Proofs
end

section
/-!
PROOFS. The statements about the stream assembler (42_rseq.md): the acceptance of `RSEQ`, and its run on a line that
stays deasserted.
-/

namespace Sys2Proof.Proofs

open Sys2Proof.Machine Sys2Proof.Laws

/-! ### Acceptance of `RSEQ` (42_rseq.md R140) -/

/-- The acceptance of `RSEQ` in `IDLE` is `acceptRseq` with `OP` set. -/
theorem commanded_rseq (s : State) (hst : s.regs.st = .idle) :
    commanded .rseq s = s.setRegs (acceptRseq s.cfg { s.regs with op := opRseq }) := by
  rw [commanded, accept_idle s _ _ hst]

/-- Settles O8: in `IDLE` the command is accepted (`commanded_rseq`); what becomes of the buffer are the rules of one
write at index 0. -/
theorem rseqAccepted : Obligations.RseqAccepted := by
  intro s hst
  refine ⟨_, exec_eq_next .rseq s, ?_⟩
  rw [commanded_rseq s hst]
  exact ⟨rfl, memWrite_length _ 0 .start, getElem?_memWrite_same _ 0 .start,
    fun i => getElem?_memWrite_other _ 0 i .start⟩

/-! ### A line that stays deasserted (42_rseq.md R144) -/

/-- The registers after an accepted `RSEQ`. -/
theorem edge_rseq_regs (s : State) (hst : s.regs.st = .idle) (hp : s.Presents .rseq) :
    (edge s).regs = acceptRseq s.cfg { s.regs with op := opRseq } := by
  obtain ⟨hr, hv, hd⟩ := hp
  rw [edge_command s hr hst hv, hd, commanded_rseq s hst]
  rfl

/-- The sample that reaches the deadline in an `RSEQ` delivers a `TIMEOUT`, whose append closes the stream
(42_rseq.md R141). -/
theorem edgeRxWait_deadline_rseq (c : Config) (r : Regs) (hop : r.op = opRseq)
    (hw : r.wcnt.toNat + 1 = c.deadline) :
    edgeRxWait c r false =
      { r with wcnt := r.wcnt + 1, bitres := .timeout, seq := memWrite r.seq r.len.toNat .timeout,
               len := r.len + 1, seqClosed := true, st := .idle } := by
  rw [edgeRxWait_deadline c r hw, deliver_rseq c { r with wcnt := r.wcnt + 1 } .timeout hop, append_timeout]

/-- Until the deadline the receiveBit that the acceptance started waits and counts. -/
theorem edges_rseq_silent (s : State) (hv : s.cfg.Valid) (hst : s.regs.st = .idle) (hp : s.Presents .rseq)
    (hr : s.NoReset (s.cfg.deadline + 1)) (hd : s.DinFrom 1 (List.replicate s.cfg.deadline false)) (j : Nat)
    (hj : j < s.cfg.deadline) :
    (edges (1 + j) s).regs = { acceptRseq s.cfg { s.regs with op := opRseq } with wcnt := ticks j } := by
  obtain ⟨-, -, -, -, -, ⟨-, hD⟩, -⟩ := hv
  have hrun := wait_run s 1 j 0 (acceptRseq s.cfg { s.regs with op := opRseq }) (edge_rseq_regs s hst hp) hD
    (by omega) (fun k hk => hr k (by omega))
    (fun i hi => dinFrom_replicate s 1 s.cfg.deadline false hd i (by omega)) j le_rfl
  rwa [Nat.zero_add] at hrun

/-- One more deasserted sample in the counter. -/
theorem ticks_succ (n : Nat) : ticks n + 1 = ticks (n + 1) := (BitVec.ofNat_add n 1).symm

/-- The registers after the last sample of the deadline: the wait has ended and the terminator is element 1. -/
theorem edges_rseq_silent_end (s : State) (hv : s.cfg.Valid) (hst : s.regs.st = .idle) (hp : s.Presents .rseq)
    (hr : s.NoReset (s.cfg.deadline + 1)) (hd : s.DinFrom 1 (List.replicate s.cfg.deadline false)) :
    (edges (s.cfg.deadline + 1) s).regs =
      { s.regs with op := opRseq, wcnt := ticks s.cfg.deadline, dcnt := 0, bitres := .timeout,
                    seq := memWrite (memWrite s.regs.seq 0 .start) 1 .timeout, len := 2, seqClosed := true,
                    seqOvf := false, st := .idle } := by
  have hrun := edges_rseq_silent s hv hst hp hr hd
  obtain ⟨-, -, -, -, -, ⟨hpos, hD⟩, -⟩ := hv
  obtain ⟨n, hn⟩ : ∃ n, s.cfg.deadline = 1 + n := Nat.exists_eq_add_of_le hpos
  have hwait := hrun n (by omega)
  have hdin := dinFrom_replicate s 1 s.cfg.deadline false hd n (by omega)
  have hcount : (ticks n).toNat + 1 = s.cfg.deadline := by
    rw [ticks_toNat n (by omega)]
    omega
  have hlast := edgeRxWait_deadline_rseq s.cfg
    { acceptRseq s.cfg { s.regs with op := opRseq } with wcnt := ticks n } rfl hcount
  rw [hn, edges_tick s (1 + n) (hr _ (by omega)) (by rw [hwait]; exact SeqState.noConfusion), hwait, hdin,
    Nat.add_comm 1 n, ← ticks_succ]
  exact hlast

/-- A start marker and a terminator written after it are the first two elements of a buffer that holds two. -/
theorem take_two_memWrite (m : Memory) (h : 2 ≤ m.length) :
    (memWrite (memWrite m 0 .start) 1 .timeout).take 2 = [.start, .timeout] := by
  match m, h with
  | _ :: _ :: _, _ => rfl

/-- Settles O32: `edges_rseq_silent` is the wait in every busy cycle, `edges_rseq_silent_end` the stream that the
timeout leaves. -/
theorem rseqOnSilentLine : Obligations.RseqOnSilentLine := by
  intro s hv hwf hst hp hr hd
  have hend := edges_rseq_silent_end s hv hst hp hr hd
  refine ⟨fun k hk1 hk => ⟨edges k s, stepN_eq_next k s, ?_⟩,
    edges (s.cfg.deadline + 1) s, stepN_eq_next _ s, ?_⟩
  · obtain ⟨j, rfl⟩ := Nat.exists_eq_add_of_le hk1
    rw [edges_rseq_silent s hv hst hp hr hd j (by omega)]
    rfl
  · obtain ⟨-, -, -, -, -, -, hdepth, -⟩ := hv
    have hlen : s.regs.seq.length = s.cfg.seqDepth := by simpa [Memory.wf] using hwf
    rw [hend]
    exact ⟨rfl, rfl, take_two_memWrite _ (by omega), rfl, rfl⟩

end Sys2Proof.Proofs
end

section
/-!
PROOFS. The statements about the value reconstructor (43_dec.md): the acceptance of `DEC`, one edge of its scan, and
the weights of the digits.
-/

namespace Sys2Proof.Proofs

open Sys2Proof.Machine Sys2Proof.Laws

/-! ### The weights of the digits (43_dec.md R159) -/

/-- The element `i` places before the last of `b :: bs` is the one `i` places before the last of `bs`, where `bs`
reaches that far. -/
theorem getD_cons_from_end (b d : Tag) (bs : List Tag) (i : Nat) (h : i < bs.length) :
    (b :: bs).getD (bs.length - i) d = bs.getD (bs.length - 1 - i) d := by
  rw [show bs.length - i = bs.length - 1 - i + 1 by omega, List.getD_cons_succ]

/-- The number that the digits write, summed from the least significant end: the digit `i` places before the last
has weight `2^i`. -/
theorem digitsValue_eq_foldl (es : List Tag) (d : Tag) :
    digitsValue es =
      (List.range es.length).foldl (fun v i => v + bitOf (es.getD (es.length - 1 - i) d) * 2 ^ i) 0 := by
  induction es with
  | nil => rfl
  | cons b bs ih =>
    have hlower : digitsValue bs = (List.range bs.length).foldl
        (fun v i => v + bitOf ((b :: bs).getD (bs.length - i) d) * 2 ^ i) 0 := by
      rw [ih]
      refine List.foldl_ext _ _ _ fun v i hi => ?_
      rw [getD_cons_from_end b d bs i (List.mem_range.1 hi)]
    rw [List.length_cons, List.range_succ, List.foldl_append, Nat.add_sub_cancel, ← hlower, List.foldl_cons,
      List.foldl_nil, Nat.sub_self, List.getD_cons_zero, digitsValue, Nat.add_comm]

/-- Settles O38: no element is deleted, and the digits are summed from the last on (`digitsValue_eq_foldl`). -/
theorem monotonicWeighting : Obligations.MonotonicWeighting := by
  intro es hes
  rw [decodeElements, List.filter_eq_self.2 hes]
  exact digitsValue_eq_foldl es .noise

/-! ### Acceptance of `DEC` (43_dec.md R155) -/

/-- A command can be accepted only when the stream is closed, and a closed stream holds at least the start marker and
the terminator (10_state.md R51 items 4 and 5). -/
theorem two_le_len_of_idle {c : Config} {r : Regs} (h : r.Inv c) (hst : r.st = .idle) : 2 ≤ r.len.toNat :=
  (h.closedShape (closed_of_not_receiving h (by simp [hst]))).1

/-- Settles O9: in `IDLE` the command is accepted (`accept_idle`), and the writes are those of `acceptDec`; that
`LEN - 2` does not underflow is `two_le_len_of_idle`. -/
theorem decAccepted : Obligations.DecAccepted := by
  intro s hst
  refine ⟨_, exec_eq_next .dec s, ?_⟩
  rw [commanded, accept_idle s _ _ hst]
  exact ⟨rfl, fun hlen => BitVec.toNat_sub_of_le hlen, fun ⟨_, hinv⟩ => two_le_len_of_idle hinv hst⟩

/-! ### One edge of the scan (43_dec.md R156) -/

/-- The registers after an edge of the scan without reset. -/
theorem edge_decScan_regs (s : State) (hst : s.regs.st = .decScan) (hr : s.input.rst = false) :
    (edge s).regs = edgeDecScan s.cfg s.regs := by
  rw [edge_busy s hr (by simp [hst]), advance_regs, tick_regs, edgeRegs, hst]

/-- The shift of the rule is the doubling of the spec. -/
theorem shiftLeft_one_eq_two_mul (w : BitVec 33) : w <<< 1 = 2 * w :=
  (BitVec.twoPow_mul_eq_shiftLeft w 1).symm

/-- Settles O35: the stop and the three kinds of element are the four laws of `edgeDecScan`. -/
theorem decScanEdge : Obligations.DecScanEdge := by
  intro s hst hr
  refine ⟨edge s, step_eq_next s, ?_⟩
  rw [edge_decScan_regs s hst hr]
  refine ⟨edgeDecScan_stop s.cfg s.regs, fun e hidx he => ?_⟩
  have hread : memRead s.regs.seq s.regs.idx.toNat = e := memRead_of_some _ _ _ he
  by_cases hone : e = .one
  · rw [edgeDecScan_one s.cfg s.regs hidx (hread.trans hone), shiftLeft_one_eq_two_mul]
    simp [hone]
  · by_cases hzero : e = .zero
    · rw [edgeDecScan_zero s.cfg s.regs hidx (hread.trans hzero), shiftLeft_one_eq_two_mul]
      simp [hzero]
    · rw [edgeDecScan_skip s.cfg s.regs hidx (hread ▸ hone) (hread ▸ hzero)]
      simp [hone, hzero]

end Sys2Proof.Proofs
end

section
/-!
PROOFS. The statement about the tie of the asserted sample and the deadline (60_exceptions.md): the run of a receiveBit
from its start, up to the first asserted sample or to the deadline.
-/

namespace Sys2Proof.Proofs

open Sys2Proof.Machine Sys2Proof.Laws

/-! ### A receiveBit from its start (41_rbit.md R121, 60_exceptions.md R176) -/

/-- A delivered `TIMEOUT` ends the operation, in an `RBIT` and in an `RSEQ` (41_rbit.md R124, 42_rseq.md R141). -/
theorem deliver_timeout_st (c : Config) (r : Regs) : (deliver c r .timeout).st = .idle := by
  by_cases hop : r.op = opRseq
  · rw [deliver_rseq c r .timeout hop, append_timeout]
  · rw [deliver_single c r .timeout hop]

theorem deliver_bitres (c : Config) (r : Regs) (t : Tag) : (deliver c r t).bitres = t := by
  obtain ⟨-, -, -, -, -, -, -, -, -, h⟩ := deliver_frame c r t
  exact h

/-- The first `m` of `n` equal samples. -/
theorem dinFrom_replicate_of_le (s : State) (k m n : Nat) (b : Bool) (hmn : m ≤ n)
    (h : s.DinFrom k (List.replicate n b)) : s.DinFrom k (List.replicate m b) := by
  rw [← Nat.add_sub_of_le hmn, List.replicate_add, dinFrom_append] at h
  exact h.1

section WaitFromStart

variable (s : State) (hv : s.cfg.Valid) (hst : s.regs.st = .rxWait) (hw : s.regs.wcnt = 0)
include hv hst hw

/-- Fewer deasserted samples than `DEADLINE` move only the counter. -/
theorem edges_waiting (n : Nat) (hn : n < s.cfg.deadline) (hr : s.NoReset n)
    (hd : s.DinFrom 0 (List.replicate n false)) :
    (edges n s).regs = { s.regs with wcnt := ticks n } := by
  obtain ⟨-, -, -, -, -, ⟨-, hbound⟩, -⟩ := hv
  have hstart : (edges 0 s).regs = { s.regs with st := .rxWait, wcnt := ticks 0 } := by
    rw [← hst, show ticks 0 = s.regs.wcnt from hw.symm]
    rfl
  have hrun := wait_run s 0 n 0 s.regs hstart hbound (by omega) (by simpa using hr)
    (dinFrom_replicate s 0 n false hd) n le_rfl
  rwa [Nat.zero_add, ← hst] at hrun

/-- The edge after `n` deasserted samples applies the rule of `RX_WAIT` to the sample at position `n`. -/
theorem edges_waiting_succ (n : Nat) (hn : n < s.cfg.deadline) (hr : s.NoReset (n + 1))
    (hd : s.DinFrom 0 (List.replicate n false)) :
    (edges (n + 1) s).regs = edgeRxWait s.cfg { s.regs with wcnt := ticks n } (s.inputAt n).din := by
  have hwait := edges_waiting s hv hst hw n hn (fun k hk => hr k (by omega)) hd
  rw [edges_tick s n (hr n (by omega)) (by simp [hwait, hst]), hwait]
  simp only [edgeRegs, hst]

/-- The first asserted sample is taken at every position below `DEADLINE`, the last included: the asserted sample
wins. -/
theorem edges_waiting_rise (n : Nat) (hn : n < s.cfg.deadline) (hr : s.NoReset (n + 1))
    (hd : s.DinFrom 0 (List.replicate n false ++ [true])) :
    (edges (n + 1) s).regs = { s.regs with wcnt := ticks n, dcnt := 1, st := .rxHigh } := by
  obtain ⟨hlow, hhigh⟩ := (dinFrom_append s 0 _ _).1 hd
  have hsample : (s.inputAt n).din = true := by simpa using dinFrom_replicate s _ 1 true hhigh 0 one_pos
  rw [edges_waiting_succ s hv hst hw n hn hr hlow, hsample, edgeRxWait_rise]

/-- `DEADLINE` deasserted samples deliver the `TIMEOUT`, at the edge of the last of them. -/
theorem edges_waiting_deadline (hr : s.NoReset s.cfg.deadline)
    (hd : s.DinFrom 0 (List.replicate s.cfg.deadline false)) :
    (edges s.cfg.deadline s).regs = deliver s.cfg { s.regs with wcnt := ticks s.cfg.deadline } .timeout := by
  have hedge := edges_waiting_succ s hv hst hw
  obtain ⟨-, -, -, -, -, ⟨hpos, hbound⟩, -⟩ := hv
  obtain ⟨n, hn⟩ : ∃ n, s.cfg.deadline = n + 1 := Nat.exists_eq_add_of_le' hpos
  have hlow := dinFrom_replicate_of_le s 0 n _ false (by omega) hd
  have hsample : (s.inputAt n).din = false := by
    simpa using dinFrom_replicate s 0 s.cfg.deadline false hd n (by omega)
  have hcount : (ticks n).toNat + 1 = s.cfg.deadline := by rw [ticks_toNat n (by omega), hn]
  have hend := hedge n (by omega) (hn ▸ hr) hlow
  rwa [hsample, edgeRxWait_deadline _ _ hcount, ticks_succ, ← hn] at hend

end WaitFromStart

/-- Settles O23: an asserted sample is taken wherever it stands (`edges_waiting_rise`); while all samples are
deasserted the counter alone moves (`edges_waiting`), until the last of them delivers the `TIMEOUT`
(`edges_waiting_deadline`). -/
theorem assertedSampleWins : Obligations.AssertedSampleWins := by
  intro s hv hst hw
  refine ⟨fun j hj hr hd => ⟨_, stepN_eq_next (j + 1) s, edges_waiting_rise s hv hst hw j hj hr hd⟩,
    fun hr hd => ⟨fun j t hj hstep => ?_, _, stepN_eq_next s.cfg.deadline s, ?_⟩⟩
  · obtain rfl : edges j s = t := by simpa [stepN_eq_next] using hstep
    have hlow := dinFrom_replicate_of_le s 0 j _ false hj.le hd
    rw [edges_waiting s hv hst hw j hj (fun k hk => hr k (by omega)) hlow]
    exact ⟨hst, rfl⟩
  · rw [edges_waiting_deadline s hv hst hw hr hd]
    exact ⟨deliver_timeout_st _ _, deliver_bitres _ _ _⟩

end Sys2Proof.Proofs
end

section
/-!
PROOFS. The statement about reset and the two hangs (70_reset_and_hazards.md): reset from every state, acceptance in the
first cycle after it, and what the receive states can do without it.
-/

namespace Sys2Proof.Proofs

open Sys2Proof.Machine Sys2Proof.Laws

/-! ### The command presented to an idle block (30_encoding.md R83) -/

/-- An idle block accepts whatever command is presented, at that edge. -/
theorem presented_accepted (s : State) (i : Instr) (hst : s.regs.st = .idle) (hp : s.Presents i) :
    ∃ u, exec i s = .next u ∧ step s = .next u.advance ∧ u.regs.st ≠ .idle ∧ u.regs.op = i.opcode := by
  obtain ⟨hr, hv, rfl⟩ := hp
  exact ⟨_, exec_eq_next _ s, step_accepts s hst hr hv, (busy_iff _).1 (commanded_busy _ s hst), commanded_op _ s hst⟩

/-! ### The receive states without reset (41_rbit.md R127, 42_rseq.md R145) -/

/-- The registers after a busy edge without reset. -/
theorem edge_busy_regs (s : State) (hr : s.input.rst = false) (hst : s.regs.st ≠ .idle) :
    (edge s).regs = edgeRegs s.cfg s.regs s.input.din := by
  rw [edge_busy s hr hst, advance_regs, tick_regs]

/-- An asserted sample keeps `RX_HIGH`: it has no deadline. -/
theorem edge_high_asserted_st (s : State) (hr : s.input.rst = false) (hst : s.regs.st = .rxHigh)
    (hd : s.input.din = true) : (edge s).regs.st = .rxHigh := by
  rw [edge_busy_regs s hr (by simp [hst]), edgeRegs, hst, hd]
  simp only [edgeRxHigh_count, hst]

/-- In an `RSEQ` a delivered tag other than `TIMEOUT` starts the next receiveBit, even when it is dropped. -/
theorem deliver_rseq_pulse_st (c : Config) (r : Regs) (t : Tag) (hop : r.op = opRseq) (ht : t ≠ .timeout) :
    (deliver c r t).st = .rxWait := by
  rw [deliver_rseq c r t hop]
  rcases append_cases c { r with bitres := t } t with ⟨h, -⟩ | ⟨-, -, h⟩ | ⟨-, -, h⟩
  · exact absurd h ht
  · rw [h]
  · rw [h]

/-- The rule of `RX_WAIT` stays in the receive states or delivers the `TIMEOUT` (41_rbit.md R121). -/
theorem edgeRxWait_receives_or_timeout (c : Config) (r : Regs) (din : Bool) (hst : r.st = .rxWait) :
    (edgeRxWait c r din).st = .rxWait ∨ (edgeRxWait c r din).st = .rxHigh ∨
      ((edgeRxWait c r din).st = .idle ∧ (edgeRxWait c r din).bitres = .timeout) := by
  cases din with
  | true => rw [edgeRxWait_rise]; exact .inr (.inl rfl)
  | false =>
    by_cases hd : r.wcnt.toNat + 1 = c.deadline
    · rw [edgeRxWait_deadline c r hd]
      exact .inr (.inr ⟨deliver_timeout_st c _, deliver_bitres c _ _⟩)
    · rw [edgeRxWait_wait c r hd]
      exact .inl hst

/-- In an `RSEQ` the rule of `RX_HIGH` stays in the receive states: the class of a pulse is no `TIMEOUT`. -/
theorem edgeRxHigh_rseq_st (c : Config) (r : Regs) (din : Bool) (hop : r.op = opRseq) (hst : r.st = .rxHigh) :
    (edgeRxHigh c r din).st = .rxWait ∨ (edgeRxHigh c r din).st = .rxHigh := by
  cases din with
  | true => rw [edgeRxHigh_count]; exact .inr hst
  | false => rw [edgeRxHigh_fall]; exact .inl (deliver_rseq_pulse_st c r _ hop (classify_ne_timeout c _))

/-- Without reset an `RSEQ` leaves its receive states only by a `TIMEOUT`. -/
theorem edge_rseq_receives_or_timeout (s : State) (hr : s.input.rst = false) (hop : s.regs.op = opRseq)
    (hst : s.regs.st = .rxWait ∨ s.regs.st = .rxHigh) :
    (edge s).regs.st = .rxWait ∨ (edge s).regs.st = .rxHigh ∨
      ((edge s).regs.st = .idle ∧ (edge s).regs.bitres = .timeout) := by
  rcases hst with hst | hst
  · rw [edge_busy_regs s hr (by simp [hst]), edgeRegs, hst]
    exact edgeRxWait_receives_or_timeout s.cfg s.regs _ hst
  · rw [edge_busy_regs s hr (by simp [hst]), edgeRegs, hst]
    exact (edgeRxHigh_rseq_st s.cfg s.regs _ hop hst).imp_right .inl

/-- Settles O2: one edge under reset is `edge_reset`, the last of several is `edges_reset`; the reset state is idle, so
it accepts (`presented_accepted`); what the two hangs can do without reset is `edge_high_asserted_st` and
`edge_rseq_receives_or_timeout`. -/
theorem resetOverridesEverything : Obligations.ResetOverridesEverything := by
  refine ⟨fun s hr => ?_, fun n s hr => ?_, fun s t hr hstep => ?_⟩
  · rw [step_eq_next, edge_reset s hr]
    rfl
  · have hregs := edges_reset s n (hr n le_rfl)
    have hidle : (edges (n + 1) s).regs.st = .idle := by rw [hregs]; rfl
    exact ⟨edges (n + 1) s, stepN_eq_next (n + 1) s, hregs, (cmdReady_iff _).2 hidle,
      fun i hp => presented_accepted _ i hidle hp⟩
  · obtain rfl : edge s = t := by simpa [step_eq_next] using hstep
    exact ⟨edge_high_asserted_st s hr, edge_rseq_receives_or_timeout s hr⟩

end Sys2Proof.Proofs
end

section
/-!
PROOFS. The statements about the words of a program (30_encoding.md): decoder and encoder, the words written out from
the table, and the assembler.
-/

namespace Sys2Proof.Proofs

open Sys2Proof.Machine Sys2Proof.Laws

/-! ### Decoder and encoder (30_encoding.md R81, R85, R89) -/

/-- The word of every instruction holds its operation code and its argument. -/
theorem opField (i : Instr) : OpField.Statement i := by
  cases i with
  | send value => exact OpField.send value
  | rbit => exact OpField.rbit
  | rseq => exact OpField.rseq
  | dec => exact OpField.dec

@[simp] theorem cmdOp_encode (i : Instr) : cmdOp (encode i) = i.opcode := (opField i).1

@[simp] theorem cmdArg_encode (i : Instr) : cmdArg (encode i) = i.arg := (opField i).2

theorem decodeCmd_encode (i : Instr) : decodeCmd (encode i) = i := by
  cases i <;> simp [decodeCmd, cmdOp_encode, cmdArg_encode, Instr.opcode, Instr.arg, opSend, opRbit, opRseq, opDec]

theorem encode_decodeCmd (w : CmdWord) :
    encode (decodeCmd w) = if cmdOp w = opSend then w else cmdOp w ++ 0#8 := by
  rcases decodeCmd_cases w with ⟨hop, hdec⟩ | ⟨hop, hdec⟩ | ⟨hop, hdec⟩ | ⟨hop, hdec⟩
  · rw [if_pos hop, hdec]
    exact (congrArg (· ++ cmdArg w) hop.symm).trans (cmdOp_append_cmdArg w)
  all_goals
    rw [if_neg (by rw [hop]; decide), hop, hdec]
    rfl

/-- Settles O13: the word of an instruction holds its two fields, from which the decoder reads it again
(`decodeCmd_encode`); a decoded word loses the ignored field, which is what the mask of the table clears
(`encode_decodeCmd`, `and_mask_eq`). -/
theorem decodeEncodeAgree : Obligations.DecodeEncodeAgree := by
  refine ⟨fun i _ => decodeCmd_encode i, fun w => ?_⟩
  rw [and_mask_eq]
  exact encode_decodeCmd w

/-- Settles O15: the nine words are closed, and the decoder is evaluated on each. -/
theorem decodeWrittenWords : Obligations.DecodeWrittenWords := by
  refine ⟨?_, ?_, ?_, ?_, ?_, ?_, ?_, ?_, ?_⟩ <;> decide

/-! ### The assembler (30_encoding.md R89, R90) -/

/-- Below the operation code 0 the word of `SEND` is its byte. -/
theorem encode_send_ofNat (v : Nat) (h : v ≤ 255) : encode (.send (BitVec.ofNat 8 v)) = BitVec.ofNat 10 v := by
  apply BitVec.eq_of_toNat_eq
  rw [encode, BitVec.toNat_append]
  simp only [Instr.opcode, Instr.arg, opSend, BitVec.toNat_ofNat, Nat.zero_mod, Nat.zero_shiftLeft, Nat.zero_or]
  omega

theorem assemble_cons (l : AsmLine) (ls : List AsmLine) (h : l.wellFormed = true) :
    assemble (l :: ls) = (assemble ls).map (l.commands.map encode ++ ·) := if_pos h

theorem assemble_cons_illFormed (l : AsmLine) (ls : List AsmLine) (h : l.wellFormed = false) :
    assemble (l :: ls) = none := if_neg (by simp [h])

/-- A program assembles to the words of its first part followed by those of its second. -/
theorem assemble_append (ls ms : List AsmLine) (us vs : List CmdWord) (hu : assemble ls = some us)
    (hv : assemble ms = some vs) : assemble (ls ++ ms) = some (us ++ vs) := by
  induction ls generalizing us with
  | nil =>
    obtain rfl : [] = us := Option.some.inj hu
    exact hv
  | cons l ls ih =>
    cases hl : l.wellFormed with
    | false => rw [assemble_cons_illFormed l ls hl] at hu; cases hu
    | true =>
      rw [assemble_cons l ls hl] at hu
      obtain ⟨ws, hws, rfl⟩ := Option.map_eq_some_iff.1 hu
      rw [List.cons_append, assemble_cons l _ hl, ih ws hws, Option.map_some, List.append_assoc]

/-- Settles O16: one line by `assemble_cons`, with the word of `SEND` from `encode_send_ofNat` and the other words
closed; programs by `assemble_append`. -/
theorem assemblerWords : Obligations.AssemblerWords := by
  refine ⟨fun v hv => ?_, fun v hv => ?_, by decide, by decide, by decide, by decide, assemble_append⟩
  · rw [assemble_cons (.send v) [] (decide_eq_true hv), ← encode_send_ofNat v hv]
    rfl
  · exact assemble_cons_illFormed (.send v) [] (decide_eq_false (by omega))

end Sys2Proof.Proofs
end

section
/-!
PROOFS. What one edge can do, said once as a relation between the registers before and after it, and the statements
that are read off it: the edges of the timed transmit states and of the receive states, the transition relation of
`ST`, and who writes which register (40_send.md, 41_rbit.md, 44_sequencing.md R150, R153).
-/

namespace Sys2Proof.Proofs

open Sys2Proof.Machine Sys2Proof.Laws

/-! ### The edges of the sequencer (44_sequencing.md R153) -/

theorem step_eq_next_iff (s t : State) : step s = .next t ↔ edge s = t := by
  rw [step_eq_next, Host.Outcome.next.injEq]

/-- The transmit states in which `DLY` counts down. -/
def timedState (st : SeqState) : Prop := st = .txPre ∨ st = .txLow ∨ st = .txHigh ∨ st = .txPost

/-- `Tick c r din r'`: the sequencer's own edge leads from the registers `r` to `r'`; one constructor per branch of the
rules of 44_sequencing.md R153. -/
inductive Tick (c : Config) (r : Regs) (din : Bool) : Regs → Prop
  | idle (hst : r.st = .idle) : Tick c r din r
  | count (hst : timedState r.st) (hdly : r.dly ≠ 1) : Tick c r din { r with dly := r.dly - 1 }
  | load (hst : r.st = .txPre ∨ (r.st = .txHigh ∧ r.nbit ≠ 0)) (hdly : r.dly = 1) : Tick c r din (loadBit r)
  | clockFall (hst : r.st = .txData) :
      Tick c r din { r with clockOut := false, dly := ticks c.tHold, st := .txLow }
  | clockRise (hst : r.st = .txLow) (hdly : r.dly = 1) :
      Tick c r din { r with clockOut := true, dly := ticks c.tHold, st := .txHigh }
  | lastCellEnd (hst : r.st = .txHigh) (hnbit : r.nbit = 0) (hdly : r.dly = 1) :
      Tick c r din { r with dly := ticks c.tPost, st := .txPost }
  | frameEnd (hst : r.st = .txPost) (hdly : r.dly = 1) : Tick c r din { r with dly := 0, st := .idle }
  | pulseStart (hst : r.st = .rxWait) (hdin : din = true) : Tick c r din { r with dcnt := 1, st := .rxHigh }
  | wait (hst : r.st = .rxWait) (hdin : din = false) (hw : r.wcnt.toNat + 1 ≠ c.deadline) :
      Tick c r din { r with wcnt := r.wcnt + 1 }
  | deadline (hst : r.st = .rxWait) (hdin : din = false) (hw : r.wcnt.toNat + 1 = c.deadline) :
      Tick c r din (deliver c { r with wcnt := r.wcnt + 1 } .timeout)
  | pulse (hst : r.st = .rxHigh) (hdin : din = true) : Tick c r din { r with dcnt := countHigh c r.dcnt }
  | pulseEnd (hst : r.st = .rxHigh) (hdin : din = false) :
      Tick c r din (deliver c r (classify c r.dcnt.toNat))
  | scanEnd (hst : r.st = .decScan) (hidx : r.idx = 0) : Tick c r din { r with st := .idle }
  | scan (hst : r.st = .decScan) (hidx : r.idx ≠ 0) :
      Tick c r din { scanElement r (memRead r.seq r.idx.toNat) with idx := r.idx - 1 }

/-- Every edge of the sequencer is one of them. -/
theorem edgeRegs_tick (c : Config) (r : Regs) (din : Bool) : Tick c r din (edgeRegs c r din) := by
  cases hst : r.st <;> simp only [edgeRegs, hst]
  case idle => exact .idle hst
  case txPre =>
    by_cases hdly : r.dly = 1
    · rw [edgeTxPre_last c r hdly]; exact .load (.inl hst) hdly
    · rw [edgeTxPre_count c r hdly]; exact .count (.inl hst) hdly
  case txData => exact .clockFall hst
  case txLow =>
    by_cases hdly : r.dly = 1
    · rw [edgeTxLow_last c r hdly]; exact .clockRise hst hdly
    · rw [edgeTxLow_count c r hdly]; exact .count (.inr (.inl hst)) hdly
  case txHigh =>
    by_cases hdly : r.dly = 1
    · by_cases hnbit : r.nbit = 0
      · rw [edgeTxHigh_end c r hdly hnbit]; exact .lastCellEnd hst hnbit hdly
      · rw [edgeTxHigh_load c r hdly hnbit]; exact .load (.inr ⟨hst, hnbit⟩) hdly
    · rw [edgeTxHigh_count c r hdly]; exact .count (.inr (.inr (.inl hst))) hdly
  case txPost =>
    by_cases hdly : r.dly = 1
    · rw [edgeTxPost_last c r hdly]; exact .frameEnd hst hdly
    · rw [edgeTxPost_count c r hdly]; exact .count (.inr (.inr (.inr hst))) hdly
  case rxWait =>
    cases hdin : din with
    | true => rw [edgeRxWait_rise]; exact .pulseStart hst rfl
    | false =>
      by_cases hw : r.wcnt.toNat + 1 = c.deadline
      · rw [edgeRxWait_deadline c r hw]; exact .deadline hst rfl hw
      · rw [edgeRxWait_wait c r hw]; exact .wait hst rfl hw
  case rxHigh =>
    cases hdin : din with
    | true => rw [edgeRxHigh_count]; exact .pulse hst rfl
    | false => rw [edgeRxHigh_fall]; exact .pulseEnd hst rfl
  case decScan =>
    by_cases hidx : r.idx = 0
    · rw [edgeDecScan_stop c r hidx]; exact .scanEnd hst hidx
    · rw [edgeDecScan, if_neg hidx]; exact .scan hst hidx

/-- The registers right after the acceptance of a command in `IDLE` (40_send.md R100, 41_rbit.md R120, 42_rseq.md
R140, 43_dec.md R155). -/
def acceptedRegs (c : Config) (r : Regs) : Instr → Regs
  | .send v => { r with op := opSend, sh := v, nbit := 8, dly := ticks c.tPre, st := .txPre }
  | .rbit => { r with op := opRbit, wcnt := 0, dcnt := 0, st := .rxWait }
  | .rseq =>
    { r with op := opRseq, seq := memWrite r.seq 0 .start, len := 1, seqClosed := false, seqOvf := false, wcnt := 0,
             dcnt := 0, st := .rxWait }
  | .dec => { r with op := opDec, acc := 0, weight := 1, idx := r.len - 2, st := .decScan }

theorem commanded_regs (i : Instr) (s : State) (hst : s.regs.st = .idle) :
    (commanded i s).regs = acceptedRegs s.cfg s.regs i := by
  cases i <;> rw [commanded, accept_idle s _ _ hst] <;> rfl

/-- The registers after the acceptance edge of a presented command. -/
theorem edge_presented_regs (s : State) (i : Instr) (hst : s.regs.st = .idle) (hp : s.Presents i) :
    (edge s).regs = acceptedRegs s.cfg s.regs i := by
  obtain ⟨hr, hv, rfl⟩ := hp
  rw [edge_command s hr hst hv, advance_regs, commanded_regs _ s hst]

/-- What the registers after an edge without reset can be: those of an acceptance, or those of the sequencer. -/
theorem edge_regs_cases (s : State) (hr : s.input.rst = false) :
    (s.regs.st = .idle ∧ s.input.cmdValid = true ∧
      (edge s).regs = acceptedRegs s.cfg s.regs (decodeCmd s.input.cmd)) ∨
    ((s.regs.st ≠ .idle ∨ s.input.cmdValid = false) ∧ Tick s.cfg s.regs s.input.din (edge s).regs) := by
  rcases edge_cases s with ⟨hr', -⟩ | ⟨-, hst, hv, he⟩ | ⟨-, hq, he⟩
  · simp [hr] at hr'
  · exact .inl ⟨hst, hv, by rw [he, advance_regs, commanded_regs _ s hst]⟩
  · exact .inr ⟨hq, he ▸ edgeRegs_tick s.cfg s.regs s.input.din⟩

/-- A busy edge without reset is one of the sequencer's. -/
theorem edge_busy_tick (s : State) (hr : s.input.rst = false) (hst : s.regs.st ≠ .idle) :
    Tick s.cfg s.regs s.input.din (edge s).regs := by
  rw [edge_busy_regs s hr hst]
  exact edgeRegs_tick s.cfg s.regs s.input.din

end Sys2Proof.Proofs
end

section
/-!
PROOFS. What is read off the edges of the sequencer (`Tick`) and the acceptances: the transition relation of `ST`, who
writes which register, and which inputs are looked at (10_state.md, 44_sequencing.md, 60_exceptions.md).
-/

namespace Sys2Proof.Proofs

open Sys2Proof.Machine Sys2Proof.Laws

/-! ### The transition relation (44_sequencing.md R150) -/

/-- `deliver` returns to `IDLE` or, after a pulse of an `RSEQ`, starts the next receiveBit. -/
theorem deliver_pulse_st (c : Config) (r : Regs) (t : Tag) (ht : t ≠ .timeout) :
    (deliver c r t).st = if r.op = opRseq then .rxWait else .idle := by
  by_cases hop : r.op = opRseq
  · rw [if_pos hop, deliver_rseq_pulse_st c r t hop ht]
  · rw [if_neg hop, deliver_single c r t hop]

theorem acceptedRegs_decodeCmd_st (c : Config) (r : Regs) (w : CmdWord) :
    (acceptedRegs c r (decodeCmd w)).st =
      if cmdOp w = opSend then .txPre else if cmdOp w = opDec then .decScan else .rxWait := by
  rcases decodeCmd_cases w with ⟨hop, hdec⟩ | ⟨hop, hdec⟩ | ⟨hop, hdec⟩ | ⟨hop, hdec⟩ <;> rw [hop, hdec] <;> rfl

/-- Settles O44: an idle block that accepts enters the state of the command (`acceptedRegs_decodeCmd_st`); every other
row of the table is one of the sequencer's edges. -/
theorem transitionTable : Obligations.TransitionTable := by
  intro s hr
  refine ⟨edge s, step_eq_next s, ?_⟩
  rcases edge_regs_cases s hr with ⟨hst, hv, he⟩ | ⟨hq, ht⟩
  · rw [he, acceptedRegs_decodeCmd_st, hst, hv]
    rfl
  · generalize (edge s).regs = r' at ht ⊢
    cases ht with
    | idle hst =>
      have hv : s.input.cmdValid = false := hq.resolve_left (not_not_intro hst)
      simp only [hst, hv, if_true]
    | count hst hdly => rcases hst with hst | hst | hst | hst <;> simp only [hst, if_neg hdly]
    | load hst hdly =>
      rcases hst with hst | ⟨hst, hnbit⟩
      · simp only [hst, if_pos hdly, loadBit]
      · simp only [hst, if_pos hdly, if_neg hnbit, loadBit]
    | clockFall hst => simp only [hst]
    | clockRise hst hdly => simp only [hst, if_pos hdly]
    | lastCellEnd hst hnbit hdly => simp only [hst, if_pos hnbit, if_pos hdly]
    | frameEnd hst hdly => simp only [hst, if_pos hdly]
    | pulseStart hst hdin => simp only [hst, if_pos hdin]
    | wait hst hdin hw => simp [hst, hdin, hw]
    | deadline hst hdin hw => simp [hst, hdin, hw, deliver_timeout_st]
    | pulse hst hdin => simp only [hst, if_pos hdin]
    | pulseEnd hst hdin =>
      simp only [hst, hdin, deliver_pulse_st _ _ _ (classify_ne_timeout _ _), Bool.false_eq_true, if_false]
      rfl
    | scanEnd hst hidx => simp only [hst, if_pos hidx]
    | scan hst hidx => simp only [hst, if_neg hidx, scanElement_st]

/-! ### Frames (10_state.md R22) -/

/-- An element of the scan touches the accumulator and the weight alone. -/
theorem scanElement_eq (r : Regs) (e : Tag) :
    scanElement r e = { r with acc := (scanElement r e).acc, weight := (scanElement r e).weight } := by
  unfold scanElement
  split
  · rfl
  · split <;> rfl

theorem deliver_op (c : Config) (r : Regs) (t : Tag) : (deliver c r t).op = r.op := by
  obtain ⟨h, -⟩ := deliver_frame c r t
  exact h

theorem deliver_pins (c : Config) (r : Regs) (t : Tag) : SamePins r (deliver c r t) := by
  obtain ⟨-, hclock, hdata, -⟩ := deliver_frame c r t
  exact ⟨hclock, hdata⟩

theorem deliver_transmit (c : Config) (r : Regs) (t : Tag) : SameTransmit r (deliver c r t) := by
  obtain ⟨-, -, -, hsh, hnbit, hdly, -⟩ := deliver_frame c r t
  exact ⟨hsh, hnbit, hdly⟩

theorem deliver_decoder (c : Config) (r : Regs) (t : Tag) : SameDecoder r (deliver c r t) := by
  obtain ⟨-, -, -, -, -, -, hidx, hacc, hweight, -⟩ := deliver_frame c r t
  exact ⟨hidx, hacc, hweight⟩

/-- No edge of the sequencer writes `OP`. -/
theorem Tick.op {c : Config} {r r' : Regs} {din : Bool} (h : Tick c r din r') : r'.op = r.op := by
  cases h with
  | deadline | pulseEnd => exact deliver_op c _ _
  | scan => rw [scanElement_eq]
  | _ => rfl

/-- The edges of the transmit states write no receive, stream or decoder register. -/
theorem Tick.transmit_frame {c : Config} {r r' : Regs} {din : Bool} (h : Tick c r din r')
    (hst : r.st = .txPre ∨ r.st = .txData ∨ r.st = .txLow ∨ r.st = .txHigh ∨ r.st = .txPost) :
    SameCounters r r' ∧ SameStream r r' ∧ SameDecoder r r' ∧ r'.bitres = r.bitres := by
  cases h with
  | idle | count | load | clockFall | clockRise | lastCellEnd | frameEnd =>
    exact ⟨⟨rfl, rfl⟩, ⟨rfl, rfl, rfl, rfl⟩, ⟨rfl, rfl, rfl⟩, rfl⟩
  | pulseStart h | wait h | deadline h | pulse h | pulseEnd h | scanEnd h | scan h => simp [h] at hst

/-- The edges of the receive states write no pin and no transmit or decoder register. -/
theorem Tick.receive_frame {c : Config} {r r' : Regs} {din : Bool} (h : Tick c r din r')
    (hst : r.st = .rxWait ∨ r.st = .rxHigh) : SamePins r r' ∧ SameTransmit r r' ∧ SameDecoder r r' := by
  cases h with
  | idle | pulseStart | wait | pulse => exact ⟨⟨rfl, rfl⟩, ⟨rfl, rfl, rfl⟩, ⟨rfl, rfl, rfl⟩⟩
  | deadline | pulseEnd => exact ⟨deliver_pins c _ _, deliver_transmit c _ _, deliver_decoder c _ _⟩
  | count h | load h | clockFall h | clockRise h | lastCellEnd h | frameEnd h | scanEnd h | scan h =>
    rcases hst with hst | hst <;> simp [timedState, hst] at h

/-- Outside the receive states of `RSEQ` no edge of the sequencer writes the stream. -/
theorem Tick.stream_frame {c : Config} {r r' : Regs} {din : Bool} (h : Tick c r din r')
    (hst : ¬ ((r.st = .rxWait ∨ r.st = .rxHigh) ∧ r.op = opRseq)) : SameStream r r' := by
  cases h with
  | deadline h =>
    rw [deliver_single c { r with wcnt := r.wcnt + 1 } _ (fun hop => hst ⟨.inl h, hop⟩)]
    exact ⟨rfl, rfl, rfl, rfl⟩
  | pulseEnd h =>
    rw [deliver_single _ _ _ (fun hop => hst ⟨.inr h, hop⟩)]
    exact ⟨rfl, rfl, rfl, rfl⟩
  | scan =>
    rw [scanElement_eq]
    exact ⟨rfl, rfl, rfl, rfl⟩
  | _ => exact ⟨rfl, rfl, rfl, rfl⟩

/-- The edges of the scan write only the decoder registers. -/
theorem Tick.scan_frame {c : Config} {r r' : Regs} {din : Bool} (h : Tick c r din r') (hst : r.st = .decScan) :
    SamePins r r' ∧ SameTransmit r r' ∧ SameCounters r r' ∧ SameStream r r' ∧ r'.bitres = r.bitres := by
  cases h with
  | idle | scanEnd => exact ⟨⟨rfl, rfl⟩, ⟨rfl, rfl, rfl⟩, ⟨rfl, rfl⟩, ⟨rfl, rfl, rfl, rfl⟩, rfl⟩
  | scan =>
    rw [scanElement_eq]
    exact ⟨⟨rfl, rfl⟩, ⟨rfl, rfl, rfl⟩, ⟨rfl, rfl⟩, ⟨rfl, rfl, rfl, rfl⟩, rfl⟩
  | count h | load h | clockFall h | clockRise h | lastCellEnd h | frameEnd h | pulseStart h | wait h | deadline h
  | pulse h | pulseEnd h => simp [timedState, hst] at h

/-- Settles O45: a busy edge is the sequencer's, and the four clauses are the four frames of `Tick`. -/
theorem sequencerFrames : Obligations.SequencerFrames := by
  intro s t hst hr hstep
  obtain rfl := (step_eq_next_iff s t).1 hstep
  have ht := edge_busy_tick s hr hst
  refine ⟨ht.op, ht.transmit_frame, fun hrx => ?_, ht.scan_frame⟩
  obtain ⟨hpins, htransmit, hdecoder⟩ := ht.receive_frame hrx
  exact ⟨hpins, htransmit, hdecoder, fun hop => ht.stream_frame (fun h => hop h.2)⟩

/-! ### The pins (10_state.md R27, 44_sequencing.md R152) -/

/-- Only the two clock edges of a bit cell move `ClockOut`. -/
theorem Tick.clockOut {c : Config} {r r' : Regs} {din : Bool} (h : Tick c r din r') (hne : r'.clockOut ≠ r.clockOut) :
    (r.st = .txData ∧ r'.st = .txLow ∧ r'.clockOut = false) ∨
    (r.st = .txLow ∧ r'.st = .txHigh ∧ r'.clockOut = true) := by
  cases h with
  | clockFall hst => exact .inl ⟨hst, rfl, rfl⟩
  | clockRise hst => exact .inr ⟨hst, rfl, rfl⟩
  | deadline | pulseEnd => exact absurd (deliver_pins c _ _).1 hne
  | scan => rw [scanElement_eq] at hne; exact absurd rfl hne
  | _ => exact absurd rfl hne

/-- Only `load_bit` moves `DataOut`. -/
theorem Tick.dataOut {c : Config} {r r' : Regs} {din : Bool} (h : Tick c r din r') (hne : r'.dataOut ≠ r.dataOut) :
    (r.st = .txPre ∨ r.st = .txHigh) ∧ r'.st = .txData := by
  cases h with
  | load hst => exact ⟨hst.imp_right And.left, rfl⟩
  | deadline | pulseEnd => exact absurd (deliver_pins c _ _).2 hne
  | scan => rw [scanElement_eq] at hne; exact absurd rfl hne
  | _ => exact absurd rfl hne

/-- An acceptance leaves both pins and `BITRES` as they are. -/
theorem acceptedRegs_frame (c : Config) (r : Regs) (i : Instr) :
    SamePins r (acceptedRegs c r i) ∧ (acceptedRegs c r i).bitres = r.bitres := by
  cases i <;> exact ⟨⟨rfl, rfl⟩, rfl⟩

/-- Settles O46: an acceptance moves no pin; of the sequencer's edges `Tick.clockOut` and `Tick.dataOut` name the ones
that do. -/
theorem pinsChangeOnlyInFrame : Obligations.PinsChangeOnlyInFrame := by
  intro s t hr hstep
  obtain rfl := (step_eq_next_iff s t).1 hstep
  rcases edge_regs_cases s hr with ⟨-, -, he⟩ | ⟨-, ht⟩
  · obtain ⟨⟨hck, hdat⟩, -⟩ := acceptedRegs_frame s.cfg s.regs (decodeCmd s.input.cmd)
    rw [he]
    exact ⟨fun hne => absurd hck hne, fun hne => absurd hdat hne⟩
  · exact ⟨ht.clockOut, ht.dataOut⟩

/-! ### The stream (10_state.md R26, R30, 44_sequencing.md R151) -/

/-- `deliver` writes at most the element at `LEN`. -/
theorem deliver_seq (c : Config) (r : Regs) (t : Tag) :
    (deliver c r t).seq = r.seq ∨ (deliver c r t).seq = memWrite r.seq r.len.toNat t := by
  by_cases hop : r.op = opRseq
  · rw [deliver_rseq c r t hop]
    rcases append_cases c { r with bitres := t } t with ⟨-, h⟩ | ⟨-, -, h⟩ | ⟨-, -, h⟩ <;> rw [h]
    · exact .inr rfl
    · exact .inr rfl
    · exact .inl rfl
  · rw [deliver_single c r t hop]
    exact .inl rfl

/-- An edge of the sequencer writes at most the element at `LEN`. -/
theorem Tick.seq {c : Config} {r r' : Regs} {din : Bool} (h : Tick c r din r') :
    r'.seq = r.seq ∨ ∃ t, r'.seq = memWrite r.seq r.len.toNat t := by
  cases h with
  | deadline => exact (deliver_seq c _ _).imp_right fun h => ⟨_, h⟩
  | pulseEnd => exact (deliver_seq c _ _).imp_right fun h => ⟨_, h⟩
  | scan => rw [scanElement_eq]; exact .inl rfl
  | _ => exact .inl rfl

/-- An edge of the sequencer in `IDLE` changes nothing. -/
theorem Tick.eq_of_idle {c : Config} {r r' : Regs} {din : Bool} (h : Tick c r din r') (hst : r.st = .idle) :
    r' = r := by
  cases h with
  | idle => rfl
  | count h | load h | clockFall h | clockRise h | lastCellEnd h | frameEnd h | pulseStart h | wait h | deadline h
  | pulse h | pulseEnd h | scanEnd h | scan h => simp [timedState, hst] at h

/-- An acceptance writes at most element 0 of the buffer. -/
theorem acceptedRegs_seq (c : Config) (r : Regs) (i : Instr) :
    (acceptedRegs c r i).seq = r.seq ∨ (acceptedRegs c r i).seq = memWrite r.seq 0 .start := by
  cases i with
  | rseq => exact .inr rfl
  | _ => exact .inl rfl

/-- Every command but `RSEQ` is accepted without a write to the stream. -/
theorem acceptedRegs_stream (c : Config) (r : Regs) (i : Instr) (hi : i ≠ .rseq) :
    SameStream r (acceptedRegs c r i) := by
  cases i with
  | rseq => exact absurd rfl hi
  | _ => exact ⟨rfl, rfl, rfl, rfl⟩

/-- An edge without reset writes at most one element: element 0 in `IDLE`, element `LEN` elsewhere. -/
theorem edge_seq (s : State) (hr : s.input.rst = false) :
    (edge s).regs.seq = s.regs.seq ∨
      ∃ t, (edge s).regs.seq = memWrite s.regs.seq (if s.regs.st = .idle then 0 else s.regs.len.toNat) t := by
  rcases edge_regs_cases s hr with ⟨hst, -, he⟩ | ⟨-, ht⟩
  · rw [he, if_pos hst]
    exact (acceptedRegs_seq _ _ _).imp_right fun h => ⟨_, h⟩
  · by_cases hst : s.regs.st = .idle
    · exact .inl (congrArg Regs.seq (ht.eq_of_idle hst))
    · rw [if_neg hst]
      exact ht.seq

/-- Settles O47: the flags, `LEN` and the buffer move only at the acceptance of `RSEQ` and in its receive states
(`acceptedRegs_stream`, `Tick.stream_frame`); the one element is that of `edge_seq`. -/
theorem onlyRseqWritesStream : Obligations.OnlyRseqWritesStream := by
  intro s t hr hstep
  obtain rfl := (step_eq_next_iff s t).1 hstep
  refine ⟨fun haccept hreceive => ?_, fun a ha => ?_, ?_⟩
  · rcases edge_regs_cases s hr with ⟨hst, hv, he⟩ | ⟨-, ht⟩
    · rw [he]
      refine acceptedRegs_stream _ _ _ fun hi => haccept ⟨hst, hv, ?_⟩
      rw [← opcode_decodeCmd, hi, Instr.opcode]
    · exact ht.stream_frame hreceive
  · rcases edge_seq s hr with h | ⟨e, h⟩ <;> rw [h]
    exact memRead_memWrite_other _ _ _ _ ha
  · rcases edge_seq s hr with h | ⟨e, h⟩ <;> rw [h]
    exact memWrite_length _ _ _

/-! ### `OP`, `BITRES` and `ACC` (10_state.md R25, R42, R45) -/

theorem classify_ne_start (c : Config) (d : Nat) : classify c d ≠ .start := by
  rcases classify_pulse c d with h | h | h <;> simp [h]

/-- Only the completion of a receiveBit writes `BITRES`, and never a start marker. -/
theorem Tick.bitres {c : Config} {r r' : Regs} {din : Bool} (h : Tick c r din r') (hne : r'.bitres ≠ r.bitres) :
    (r.st = .rxHigh ∨ (r.st = .rxWait ∧ r.wcnt.toNat + 1 = c.deadline)) ∧ din = false ∧ r'.bitres ≠ .start := by
  cases h with
  | deadline hst hdin hw => exact ⟨.inr ⟨hst, hw⟩, hdin, by simp [deliver_bitres]⟩
  | pulseEnd hst hdin => exact ⟨.inl hst, hdin, by rw [deliver_bitres]; exact classify_ne_start _ _⟩
  | scan => rw [scanElement_eq] at hne; exact absurd rfl hne
  | _ => exact absurd rfl hne

/-- Of the sequencer's edges only those of the scan write `ACC`. -/
theorem Tick.acc {c : Config} {r r' : Regs} {din : Bool} (h : Tick c r din r') (hne : r'.acc ≠ r.acc) :
    r.st = .decScan := by
  cases h with
  | scan hst => exact hst
  | deadline | pulseEnd =>
    obtain ⟨-, hacc, -⟩ := deliver_decoder c _ _
    exact absurd hacc hne
  | _ => exact absurd rfl hne

/-- Only the acceptance of `DEC` writes `ACC`. -/
theorem acceptedRegs_acc (c : Config) (r : Regs) (i : Instr) (hne : (acceptedRegs c r i).acc ≠ r.acc) : i = .dec := by
  cases i with
  | dec => rfl
  | _ => exact absurd rfl hne

/-- Settles O48: an acceptance writes `OP`, no `BITRES`, and `ACC` for `DEC` alone; of the sequencer's edges `Tick.op`,
`Tick.bitres` and `Tick.acc` name the ones that write the register. -/
theorem opBitresAccWriters : Obligations.OpBitresAccWriters := by
  intro s t hr hstep
  obtain rfl := (step_eq_next_iff s t).1 hstep
  rcases edge_regs_cases s hr with ⟨hst, hv, he⟩ | ⟨-, ht⟩
  · rw [he]
    refine ⟨fun _ => ⟨hst, hv⟩, fun hne => absurd (acceptedRegs_frame _ _ _).2 hne, fun hne => .inr ⟨hst, hv, ?_⟩⟩
    rw [← opcode_decodeCmd, acceptedRegs_acc _ _ _ hne, Instr.opcode]
  · exact ⟨fun hne => absurd ht.op hne, ht.bitres, fun hne => .inl (ht.acc hne)⟩

end Sys2Proof.Proofs
end

section
/-!
PROOFS. The invariant of 10_state.md R51: reset has it, every step keeps it, and what it says of the indices and of the
arithmetic of the scan.
-/

namespace Sys2Proof.Proofs

open Sys2Proof.Machine Sys2Proof.Laws

/-! ### Reset -/

theorem reset_inv {c : Config} (hv : c.Valid) : (Regs.reset c).Inv c := by
  obtain ⟨-, -, -, -, -, -, hdepth, -⟩ := hv
  have hlen : (Regs.reset c).len.toNat = 2 := rfl
  exact {
    seqSize := reset_seq_wf c
    startMarker := reset_seq_start c (by omega)
    lenRange := ⟨by omega, hdepth, nofun⟩
    openIff := by simp [Regs.reset]
    closedShape := fun _ => ⟨hlen.ge, reset_seq_rest c 1 le_rfl (by omega), fun i h1 h2 => by omega⟩
    openShape := nofun
    clockLow := by simp [Regs.reset]
    dlyZero := fun _ _ _ _ => rfl
    dlyPre := nofun
    dlyHold := nofun
    dlyPost := nofun
    nbitRange := by simp [Regs.reset]
    wcntRange := by simp [Regs.reset]
    dcntRange := by simp [Regs.reset]
    bitresTag := nofun
    scan := nofun
    overflow := nofun }

/-- Settles O49: `reset_inv`, and `CFG_TEST` is valid. -/
theorem resetHasInvariant : Obligations.ResetHasInvariant := by
  refine ⟨⟨by decide, reset_inv (by decide)⟩, fun s hv hs => ⟨hv, ?_⟩⟩
  rw [hs]
  exact reset_inv hv

/-! ### Indices (44_sequencing.md R151, 20_memory.md R63) -/

theorem seq_length_of_inv {c : Config} {r : Regs} (h : r.Inv c) : r.seq.length = c.seqDepth := by
  simpa [Memory.wf] using h.seqSize

/-- The receive states of an `RSEQ` have an open stream. -/
theorem open_of_receiving {c : Config} {r : Regs} (h : r.Inv c) (hop : r.op = opRseq)
    (hst : r.st = .rxWait ∨ r.st = .rxHigh) : r.seqClosed = false := h.openIff.2 ⟨hop, hst⟩

/-- An open stream has room for one more element, its terminator. -/
theorem len_lt_of_open {c : Config} {r : Regs} (hv : c.Valid) (h : r.Inv c) (ho : r.seqClosed = false) :
    r.len.toNat < c.seqDepth := by
  obtain ⟨-, -, -, -, -, -, hdepth, -⟩ := hv
  obtain ⟨-, -, hopen⟩ := h.lenRange
  have hlen := hopen ho
  omega

theorem closed_of_scan {c : Config} {r : Regs} (h : r.Inv c) (hst : r.st = .decScan) : r.seqClosed = true :=
  closed_of_not_receiving h (by simp [hst])

theorem idx_pos {r : Regs} (hidx : r.idx ≠ 0) : 1 ≤ r.idx.toNat :=
  Nat.one_le_iff_ne_zero.2 fun h => hidx (BitVec.eq_of_toNat_eq h)

/-- The scan reads a pulse tag between the start marker and the terminator. -/
theorem scan_reads_pulse {c : Config} {r : Regs} (h : r.Inv c) (hst : r.st = .decScan) (hidx : r.idx ≠ 0) :
    ∃ e, r.seq[r.idx.toNat]? = some e ∧ isPulseTag e = true := by
  obtain ⟨-, -, hshape⟩ := h.closedShape (closed_of_scan h hst)
  exact hshape _ (idx_pos hidx) (h.scan hst).1

/-- Settles O51: the scanned index is from item 12 of the invariant (`scan_reads_pulse`), the room of an open stream
from item 3 (`len_lt_of_open`), the two elements of an idle block from item 5. -/
theorem indicesInRange : Obligations.IndicesInRange := by
  rintro s ⟨hv, h⟩
  refine ⟨fun hst hidx => ?_, fun ho => ?_, fun hst => ?_⟩
  · obtain ⟨e, he, hpulse⟩ := scan_reads_pulse h hst hidx
    exact ⟨idx_pos hidx, (h.scan hst).1, e, he, hpulse, memRead_of_some _ _ _ he⟩
  · rw [seq_length_of_inv h]
    exact len_lt_of_open hv h ho
  · have hlen := two_le_len_of_idle h hst
    have hle := h.lenRange.2.1
    rw [seq_length_of_inv h]
    omega

/-! ### The acceptances keep the invariant -/

/-- The terminator is the last element before the scan starts: nothing is scanned yet. -/
theorem scanned_eq_nil (r : Regs) (h : r.len.toNat - 1 ≤ r.idx.toNat + 1) : r.scanned = [] := by
  rw [Regs.scanned, List.drop_eq_nil_iff, List.length_take]
  omega

theorem acceptedRegs_inv {c : Config} {r : Regs} (hv : c.Valid) (h : r.Inv c) (hst : r.st = .idle) (i : Instr) :
    (acceptedRegs c r i).Inv c := by
  have hclosed : r.seqClosed = true := closed_of_not_receiving h (by simp [hst])
  obtain ⟨-, ⟨hpre, hpre'⟩, -, -, -, ⟨hdeadline, -⟩, hdepth, hdepth'⟩ := hv
  cases i with
  | send v =>
    have hclock : r.clockOut = true := clockOut_of_inv h (by simp [hst])
    have hticks : (ticks c.tPre).toNat = c.tPre := ticks_toNat _ (by omega)
    exact inv_transmit_update h (by simp [quietState, hst]) .txPre opSend r.clockOut r.dataOut v 8 (ticks c.tPre)
      (by simp [quietState]) (by simp [TransmitOk, hclock, hticks, hpre])
  | rbit =>
    exact inv_receive_update h (.inl hst) .rxWait opRbit 0 0 r.bitres (.inr (.inl rfl))
      (by simp [hclosed, opRbit, opRseq]) (by simp) (by simp) h.bitresTag
  | rseq =>
    exact inv_stream_update h (.inl hst) .rxWait (memWrite r.seq 0 .start) 1 false false (.inr (.inl rfl))
      opRseq 0 0 r.bitres (memWrite_wf _ _ _ _ h.seqSize)
      (getElem?_memWrite_same _ _ _ (by rw [seq_length_of_inv h]; omega))
      (by simp; omega) (by simp) nofun (fun _ i h1 h2 => absurd (h1.trans h2) (by decide)) nofun
      (by simp) (by simp) h.bitresTag
  | dec =>
    have hlen : 2 ≤ r.len.toNat := two_le_len_of_idle h hst
    have hidx : (r.len - 2).toNat = r.len.toNat - 2 := BitVec.toNat_sub_of_le hlen
    refine inv_decode_update h (.inl hst) .decScan (.inr rfl) opDec (r.len - 2) 0 1 fun _ => ?_
    rw [scanned_eq_nil _ (by simp only [hidx]; omega)]
    exact ⟨hidx.le, by decide, by decide, by decide⟩

/-! ### A delivery keeps the invariant -/

/-- The terminator of an `RSEQ` (42_rseq.md R141). -/
theorem deliver_rseq_timeout (c : Config) (r : Regs) (hop : r.op = opRseq) :
    deliver c r .timeout =
      { r with bitres := .timeout, seq := memWrite r.seq r.len.toNat .timeout, len := r.len + 1, seqClosed := true,
               st := .idle } := by
  rw [deliver_rseq c r .timeout hop, append_timeout]

/-- A pulse of an `RSEQ` below the last slot (42_rseq.md R141). -/
theorem deliver_rseq_stored (c : Config) (r : Regs) (t : Tag) (hop : r.op = opRseq) (ht : t ≠ .timeout)
    (hl : r.len.toNat < c.seqDepth - 1) :
    deliver c r t =
      { r with bitres := t, seq := memWrite r.seq r.len.toNat t, len := r.len + 1, wcnt := 0, dcnt := 0,
               st := .rxWait } := by
  rw [deliver_rseq c r t hop, append_stored c { r with bitres := t } t ht hl]

/-- A pulse of an `RSEQ` for which only the last slot is left (42_rseq.md R142). -/
theorem deliver_rseq_dropped (c : Config) (r : Regs) (t : Tag) (hop : r.op = opRseq) (ht : t ≠ .timeout)
    (hl : ¬ r.len.toNat < c.seqDepth - 1) :
    deliver c r t = { r with bitres := t, seqOvf := true, wcnt := 0, dcnt := 0, st := .rxWait } := by
  rw [deliver_rseq c r t hop, append_dropped c { r with bitres := t } t ht hl]

theorem toNat_succ_of_lt (x : BitVec 6) (h : x.toNat < 34) : (x + 1).toNat = x.toNat + 1 := by
  bv_omega

theorem receiving_rest {st : SeqState} (hst : st = .rxWait ∨ st = .rxHigh) : restState st :=
  hst.elim (fun e => .inr (.inl e)) (fun e => .inr (.inr (.inl e)))

/-- A written tag is the last element of an open stream one longer, and the elements before it are the same. -/
theorem pulses_memWrite {r : Regs} (t : Tag) (hroom : r.len.toNat < r.seq.length) (P : Tag → Prop)
    (hshape : ∀ i, 1 ≤ i → i ≤ r.len.toNat - 1 → ∃ e, r.seq[i]? = some e ∧ P e) :
    (∀ i, 1 ≤ i → i ≤ r.len.toNat - 1 → ∃ e, (memWrite r.seq r.len.toNat t)[i]? = some e ∧ P e) ∧
      (memWrite r.seq r.len.toNat t)[r.len.toNat]? = some t := by
  refine ⟨fun i h1 h2 => ?_, getElem?_memWrite_same _ _ _ hroom⟩
  rw [getElem?_memWrite_other _ _ _ _ (by omega)]
  exact hshape i h1 h2

section Deliver

variable {c : Config} {r : Regs} (hv : c.Valid) (h : r.Inv c) (hst : r.st = .rxWait ∨ r.st = .rxHigh)
  {w : BitVec 32} (hw : w.toNat ≤ c.deadline)
include h hst hw

/-- The result of an `RBIT`: no stream register moves. -/
theorem deliver_single_inv (hop : r.op ≠ opRseq) (t : Tag) (ht : t ≠ .start) :
    (deliver c { r with wcnt := w } t).Inv c := by
  rw [deliver_single c { r with wcnt := w } t hop]
  exact inv_receive_update h (receiving_rest hst) .idle r.op w r.dcnt t (.inl rfl)
    (by simp [h.openIff, hop]) ⟨hw, nofun⟩ ⟨h.dcntRange.1, nofun, nofun⟩ ht

include hv

/-- The terminator of an `RSEQ` closes the stream. -/
theorem deliver_timeout_inv (hop : r.op = opRseq) : (deliver c { r with wcnt := w } .timeout).Inv c := by
  have ho := open_of_receiving h hop hst
  have hroom := len_lt_of_open hv h ho
  obtain ⟨-, -, -, -, -, -, hdepth, hdepth'⟩ := hv
  have hlen := h.lenRange.1
  have hlen' := toNat_succ_of_lt r.len (by omega)
  obtain ⟨hpulses, hlast⟩ := pulses_memWrite .timeout (by rwa [seq_length_of_inv h]) _ (h.openShape ho)
  rw [deliver_rseq_timeout c { r with wcnt := w } hop]
  refine inv_stream_update h (receiving_rest hst) .idle (memWrite r.seq r.len.toNat .timeout) (r.len + 1) true r.seqOvf
    (.inl rfl) r.op w r.dcnt .timeout (memWrite_wf _ _ _ _ h.seqSize) ?_ ?_ (by simp) (fun _ => ⟨?_, ?_, ?_⟩) nofun
    (fun hovf => ?_) ⟨hw, nofun⟩ ⟨h.dcntRange.1, nofun, nofun⟩ nofun
  · rw [getElem?_memWrite_other _ _ _ _ (by omega), h.startMarker]
  · exact ⟨by omega, by omega, nofun⟩
  · omega
  · rwa [hlen', Nat.add_sub_cancel]
  · exact fun i h1 h2 => hpulses i h1 (by omega)
  · have hfull := h.overflow hovf
    omega

omit hw in
/-- A pulse of an `RSEQ` is stored below the last slot or dropped. -/
theorem deliver_pulse_inv (hop : r.op = opRseq) (t : Tag) (ht : isPulseTag t = true) (hne : t ≠ .timeout)
    (hns : t ≠ .start) : (deliver c { r with wcnt := w } t).Inv c := by
  have ho := open_of_receiving h hop hst
  have hroom := len_lt_of_open hv h ho
  obtain ⟨hlen, -, hopen⟩ := h.lenRange
  obtain ⟨-, -, -, -, -, -, hdepth, hdepth'⟩ := hv
  by_cases hl : r.len.toNat < c.seqDepth - 1
  · have hlen' := toNat_succ_of_lt r.len (by omega)
    obtain ⟨hpulses, hlast⟩ := pulses_memWrite t (by rwa [seq_length_of_inv h]) _ (h.openShape ho)
    rw [deliver_rseq_stored c { r with wcnt := w } t hop hne hl]
    refine inv_stream_update h (receiving_rest hst) .rxWait (memWrite r.seq r.len.toNat t) (r.len + 1) r.seqClosed
      r.seqOvf (.inr (.inl rfl)) r.op 0 0 t (memWrite_wf _ _ _ _ h.seqSize) ?_ ?_ (by simp [ho, hop]) (by simp [ho])
      (fun _ i h1 h2 => ?_) (fun hovf => ?_) (by simp) (by simp) hns
    · rw [getElem?_memWrite_other _ _ _ _ (by omega), h.startMarker]
    · exact ⟨by omega, by omega, fun _ => by omega⟩
    · by_cases hi : i = r.len.toNat
      · exact ⟨t, hi ▸ hlast, ht⟩
      · exact hpulses i h1 (by omega)
    · have hfull := h.overflow hovf
      omega
  · rw [deliver_rseq_dropped c { r with wcnt := w } t hop hne hl]
    exact inv_stream_update h (receiving_rest hst) .rxWait r.seq r.len r.seqClosed true (.inr (.inl rfl)) r.op 0 0 t
      h.seqSize h.startMarker h.lenRange (by simp [ho, hop]) h.closedShape h.openShape (fun _ => by omega) (by simp)
      (by simp) hns

/-- Every completed receiveBit keeps the invariant: the result of an `RBIT`, the terminator and a pulse of an `RSEQ`. -/
theorem deliver_inv (t : Tag) (ht : t = .timeout ∨ isPulseTag t = true) :
    (deliver c { r with wcnt := w } t).Inv c := by
  have hns : t ≠ .start := by rintro rfl; simp [isPulseTag] at ht
  by_cases hop : r.op = opRseq
  · by_cases hne : t = .timeout
    · rw [hne]
      exact deliver_timeout_inv hv h hst hw hop
    · exact deliver_pulse_inv hv h hst hop t (ht.resolve_left hne) hne hns
  · exact deliver_single_inv h hst hw hop t hns

end Deliver

/-! ### An element of the scan (43_dec.md R156, R163) -/

/-- The element at `IDX` is the first of those scanned once the index has gone down. -/
theorem scanned_pred {r r' : Regs} {e : Tag} (hseq : r'.seq = r.seq) (hlen : r'.len = r.len)
    (hidx : r'.idx.toNat + 1 = r.idx.toNat) (hle : r.idx.toNat < r.len.toNat - 1)
    (he : r.seq[r.idx.toNat]? = some e) : r'.scanned = e :: r.scanned := by
  obtain ⟨hlt, rfl⟩ := List.getElem?_eq_some_iff.1 he
  rw [Regs.scanned, Regs.scanned, hseq, hlen, hidx,
    List.drop_eq_getElem_cons (by rw [List.length_take]; omega), List.getElem_take]

/-- The elements already scanned lie between the index and the terminator. -/
theorem contributing_length_le (r : Regs) :
    (r.scanned.filter contributes).length ≤ r.len.toNat - 2 - r.idx.toNat := by
  have hle := List.length_filter_le contributes r.scanned
  have hlen : r.scanned.length ≤ r.len.toNat - 1 - (r.idx.toNat + 1) := by
    rw [Regs.scanned, List.length_drop, List.length_take]
    omega
  omega

theorem shiftLeft_one_toNat (x : BitVec 33) (h : x.toNat < 2 ^ 32) : (x <<< 1).toNat = 2 * x.toNat := by
  rw [shiftLeft_one_eq_two_mul]
  bv_omega

/-- While accumulator and weight are at most `2^31`, an element adds its bit times the weight, and doubles the weight
if it contributes, both exactly. -/
theorem scanElement_exact (r : Regs) (e : Tag) (hw : r.weight.toNat ≤ 2 ^ 31) (ha : r.acc.toNat < r.weight.toNat) :
    (scanElement r e).acc.toNat = r.acc.toNat + bitOf e * r.weight.toNat ∧
    (scanElement r e).weight.toNat = if contributes e then 2 * r.weight.toNat else r.weight.toNat := by
  have hdouble := shiftLeft_one_toNat r.weight (by omega)
  by_cases h1 : e = .one
  · subst h1
    have hadd : (r.acc + r.weight.setWidth 32).toNat = r.acc.toNat + 1 * r.weight.toNat := by
      rw [BitVec.toNat_add, BitVec.toNat_setWidth]
      omega
    exact ⟨hadd, hdouble⟩
  · by_cases h0 : e = .zero
    · subst h0
      simpa [scanElement, bitOf, contributes] using hdouble
    · simp [scanElement, bitOf, contributes, h0, h1]

theorem idx_pred_toNat {r : Regs} (hidx : r.idx ≠ 0) : (r.idx - 1).toNat = r.idx.toNat - 1 :=
  BitVec.toNat_sub_of_le (idx_pos hidx)

section Scan

variable {c : Config} {r : Regs} (hv : c.Valid) (h : r.Inv c) (hst : r.st = .decScan) (hidx : r.idx ≠ 0)
include hv h hst hidx

/-- While an element is left to scan, at most 31 have contributed. -/
theorem weight_le_of_scan : r.weight.toNat ≤ 2 ^ 31 := by
  obtain ⟨hle, hweight, -, -⟩ := h.scan hst
  have hcount := contributing_length_le r
  have hpos := idx_pos hidx
  have hlen := h.lenRange.2.1
  obtain ⟨-, -, -, -, -, -, -, hdepth⟩ := hv
  rw [hweight]
  exact Nat.pow_le_pow_right two_pos (by omega)

/-- The registers after the edge of the scan that reads `e`. -/
def scanNext (r : Regs) (e : Tag) : Regs :=
  { r with idx := r.idx - 1, acc := (scanElement r e).acc, weight := (scanElement r e).weight }

omit hv h hst in
theorem edgeDecScan_scanNext {e : Tag} (he : r.seq[r.idx.toNat]? = some e) : edgeDecScan c r = scanNext r e := by
  rw [edgeDecScan, if_neg hidx, memRead_of_some _ _ _ he, scanElement_eq]
  rfl

omit hv in
theorem scanNext_scanned {e : Tag} (he : r.seq[r.idx.toNat]? = some e) : (scanNext r e).scanned = e :: r.scanned := by
  have hle := (h.scan hst).1
  have hpos := idx_pos hidx
  exact scanned_pred rfl rfl (by rw [scanNext, idx_pred_toNat hidx]; omega) (by omega) he

/-- What the edge does to the two numbers of the scan. -/
theorem scanNext_exact {e : Tag} :
    (scanNext r e).acc.toNat = r.acc.toNat + bitOf e * r.weight.toNat ∧
    (scanNext r e).weight.toNat = if contributes e then 2 * r.weight.toNat else r.weight.toNat := by
  obtain ⟨-, -, hacc, -⟩ := h.scan hst
  exact scanElement_exact r e (weight_le_of_scan hv h hst hidx) hacc

/-- Item 12 of the invariant after one more element. -/
theorem scanNext_item {e : Tag} (he : r.seq[r.idx.toNat]? = some e) :
    (scanNext r e).idx.toNat ≤ r.len.toNat - 2 ∧
      (scanNext r e).weight.toNat = 2 ^ ((scanNext r e).scanned.filter contributes).length ∧
      (scanNext r e).acc.toNat < (scanNext r e).weight.toNat ∧
      ((scanNext r e).scanned.filter contributes).length ≤ 32 := by
  obtain ⟨hle, hweight, hacc, -⟩ := h.scan hst
  obtain ⟨hadd, hdouble⟩ := scanNext_exact hv h hst hidx (e := e)
  have hpred : (scanNext r e).idx.toNat = r.idx.toNat - 1 := idx_pred_toNat hidx
  have hcount : _ ≤ r.len.toNat - 2 - (scanNext r e).idx.toNat := contributing_length_le (scanNext r e)
  have hdepth := h.lenRange.2.1
  obtain ⟨-, -, -, -, -, -, -, hdepth'⟩ := hv
  refine ⟨by omega, ?_, ?_, by omega⟩
  · rw [hdouble, scanNext_scanned h hst hidx he]
    cases hc : contributes e <;> simp [hc, hweight, pow_succ, Nat.mul_comm]
  · rw [hadd, hdouble]
    cases e <;> simp [bitOf, contributes] <;> omega

theorem scan_inv : (edgeDecScan c r).Inv c := by
  obtain ⟨e, he, -⟩ := scan_reads_pulse h hst hidx
  rw [edgeDecScan_scanNext hidx he]
  exact inv_decode_update h (.inr hst) r.st (.inr hst) r.op (r.idx - 1) _ _ fun _ => scanNext_item hv h hst hidx he

end Scan

/-! ### Every edge keeps the invariant -/

/-- The load of a bit keeps the invariant while a bit is left (40_send.md R102). -/
theorem loadBit_inv {c : Config} {r : Regs} (h : r.Inv c) (hst : r.st = .txPre ∨ (r.st = .txHigh ∧ r.nbit ≠ 0)) :
    (loadBit r).Inv c := by
  have hquiet : quietState r.st := by rcases hst with e | ⟨e, -⟩ <;> simp [quietState, e]
  have hclock : r.clockOut = true := clockOut_of_inv h (by rcases hst with e | ⟨e, -⟩ <;> simp [e])
  obtain ⟨hle, hpre, -, -⟩ := h.nbitRange
  have hpos : r.nbit ≠ 0 := by
    rcases hst with e | ⟨-, e⟩
    · rw [hpre e]; decide
    · exact e
  have hnbit : (r.nbit - 1).toNat ≤ 7 := by
    rw [BitVec.toNat_sub_of_le (Nat.one_le_iff_ne_zero.2 fun e => hpos (BitVec.eq_of_toNat_eq e))]
    exact Nat.sub_le_of_le_add hle
  exact inv_transmit_update h hquiet .txData r.op r.clockOut (nextBit r.sh) (shiftOut r.sh) (r.nbit - 1) 0
    (by simp [quietState])
    ⟨by simp [hclock], fun _ _ _ _ => rfl, nofun, by simp, nofun, by omega, nofun, fun _ => hnbit, nofun⟩

/-- A tick of the down-counter keeps the invariant: the counter is neither 0 nor 1. -/
theorem countDown_inv {c : Config} {r : Regs} (h : r.Inv c) (hst : timedState r.st) (hdly : r.dly ≠ 1) :
    ({ r with dly := r.dly - 1 } : Regs).Inv c := by
  have hquiet : quietState r.st := by rcases hst with e | e | e | e <;> simp [quietState, e]
  obtain ⟨hclock, hzero, hpre, hhold, hpost, hnbit⟩ := transmitOk_of_inv h
  have hne : r.dly.toNat ≠ 1 := fun e => hdly (BitVec.eq_of_toNat_eq e)
  have hrange (n : Nat) (hn : 1 ≤ r.dly.toNat ∧ r.dly.toNat ≤ n) :
      1 ≤ (r.dly - 1).toNat ∧ (r.dly - 1).toNat ≤ n := by
    have hpred : (r.dly - 1).toNat = r.dly.toNat - 1 := BitVec.toNat_sub_of_le hn.1
    omega
  exact inv_transmit_update h hquiet r.st r.op r.clockOut r.dataOut r.sh r.nbit (r.dly - 1) hquiet
    ⟨hclock, fun h1 h2 h3 h4 => by rcases hst with e | e | e | e <;> contradiction,
      fun e => hrange _ (hpre e), fun e => hrange _ (hhold e), fun e => hrange _ (hpost e), hnbit⟩

theorem isPulseTag_classify (c : Config) (d : Nat) : isPulseTag (classify c d) = true := by
  rcases classify_pulse c d with e | e | e <;> rw [e] <;> rfl

theorem countHigh_toNat (c : Config) (d : BitVec 32) (hnoise : c.tNoiseHigh < 2 ^ 31 - 1) :
    (countHigh c d).toNat = min (d.toNat + 1) (c.tNoiseHigh + 1) := by
  rw [countHigh, ticks_toNat _ (by omega)]

/-- Every edge of the sequencer keeps the invariant: its transmit edges move only the transmit registers, its receive
edges only the counters up to a delivery, its scan only the decoder registers. -/
theorem Tick.inv {c : Config} {r r' : Regs} {din : Bool} (hv : c.Valid) (h : r.Inv c) (ht : Tick c r din r') :
    r'.Inv c := by
  have hscan := scan_inv hv h
  have hdeliver := @deliver_inv c r hv h
  obtain ⟨-, -, ⟨hhold, hhold'⟩, ⟨hpost, hpost'⟩, ⟨-, -, -, hnoise⟩, ⟨hdeadline, hdeadline'⟩, -⟩ := hv
  have hholdTicks : (ticks c.tHold).toNat = c.tHold := ticks_toNat _ (by omega)
  have hpostTicks : (ticks c.tPost).toNat = c.tPost := ticks_toNat _ (by omega)
  obtain ⟨hle, -, hcell, -⟩ := h.nbitRange
  obtain ⟨hwcnt, hwait⟩ := h.wcntRange
  obtain ⟨hdcnt, -, hhigh⟩ := h.dcntRange
  have hwcntSucc (hw : r.wcnt.toNat < c.deadline) : (r.wcnt + 1).toNat = r.wcnt.toNat + 1 := by bv_omega
  cases ht with
  | idle hst => exact h
  | count hst hdly => exact countDown_inv h hst hdly
  | load hst hdly => exact loadBit_inv h hst
  | clockFall hst =>
    exact inv_transmit_update h (by simp [quietState, hst]) .txLow r.op false r.dataOut r.sh r.nbit (ticks c.tHold)
      (by simp [quietState]) (by simp [TransmitOk, hholdTicks, hhold, hle, hcell (.inl hst)])
  | clockRise hst hdly =>
    exact inv_transmit_update h (by simp [quietState, hst]) .txHigh r.op true r.dataOut r.sh r.nbit (ticks c.tHold)
      (by simp [quietState]) (by simp [TransmitOk, hholdTicks, hhold, hle, hcell (.inr (.inl hst))])
  | lastCellEnd hst hnbit hdly =>
    have hclock : r.clockOut = true := clockOut_of_inv h (by simp [hst])
    exact inv_transmit_update h (by simp [quietState, hst]) .txPost r.op r.clockOut r.dataOut r.sh r.nbit
      (ticks c.tPost) (by simp [quietState]) (by simp [TransmitOk, hpostTicks, hpost, hclock, hnbit])
  | frameEnd hst hdly =>
    have hclock : r.clockOut = true := clockOut_of_inv h (by simp [hst])
    exact inv_transmit_update h (by simp [quietState, hst]) .idle r.op r.clockOut r.dataOut r.sh r.nbit 0
      (by simp [quietState]) (by simp [TransmitOk, hclock, hle])
  | pulseStart hst hdin =>
    exact inv_receive_update h (receiving_rest (.inl hst)) .rxHigh r.op r.wcnt 1 r.bitres (.inr (.inr rfl))
      (by simp [h.openIff, hst]) ⟨hwcnt, nofun⟩ (by simp) h.bitresTag
  | wait hst hdin hw =>
    have hlt := hwait hst
    have hsucc := hwcntSucc (by omega)
    exact inv_receive_update h (receiving_rest (.inl hst)) r.st r.op (r.wcnt + 1) r.dcnt r.bitres (.inr (.inl hst))
      h.openIff ⟨by omega, fun _ => by omega⟩ h.dcntRange h.bitresTag
  | deadline hst hdin hw =>
    have hsucc := hwcntSucc (by omega)
    exact hdeliver (.inl hst) (by omega) .timeout (.inl rfl)
  | pulse hst hdin =>
    have hcount := countHigh_toNat c r.dcnt hnoise
    exact inv_receive_update h (receiving_rest (.inr hst)) r.st r.op r.wcnt (countHigh c r.dcnt) r.bitres
      (.inr (.inr hst)) h.openIff h.wcntRange ⟨by omega, by simp [hst], fun _ => by omega⟩ h.bitresTag
  | pulseEnd hst hdin => exact hdeliver (w := r.wcnt) (.inr hst) hwcnt _ (.inr (isPulseTag_classify c _))
  | scanEnd hst hidx =>
    exact inv_decode_update h (.inr hst) .idle (.inl rfl) r.op r.idx r.acc r.weight nofun
  | scan hst hidx =>
    have hinv := hscan hst hidx
    rwa [edgeDecScan, if_neg hidx] at hinv

/-- Every step keeps the invariant: reset establishes it, an acceptance and each edge of the sequencer keep it. -/
theorem edge_inv {s : State} (h : s.Inv) : (edge s).Inv := by
  obtain ⟨hv, hregs⟩ := h
  rw [State.Inv, edge_cfg]
  refine ⟨hv, ?_⟩
  cases hr : s.input.rst with
  | true =>
    rw [edge_reset s hr]
    exact reset_inv hv
  | false =>
    rcases edge_regs_cases s hr with ⟨hst, -, he⟩ | ⟨-, ht⟩
    · rw [he]
      exact acceptedRegs_inv hv hregs hst _
    · exact ht.inv hv hregs

/-- Settles O50: `edge_inv`. -/
theorem stepKeepsInvariant : Obligations.StepKeepsInvariant := by
  intro s t h hstep
  obtain rfl := (step_eq_next_iff s t).1 hstep
  exact edge_inv h

theorem edges_inv {s : State} (n : Nat) (h : s.Inv) : (edges n s).Inv := by
  induction n with
  | zero => exact h
  | succ n ih => rw [edges_succ]; exact edge_inv ih

/-! ### The arithmetic of the scan -/

/-- Settles O40: the edge reads the element at `IDX`, and both numbers are exact by `scanNext_exact`. -/
theorem scanArithmeticIsExact : Obligations.ScanArithmeticIsExact := by
  rintro s t e ⟨hv, h⟩ hst hidx hr he hstep
  obtain rfl := (step_eq_next_iff s t).1 hstep
  obtain ⟨hadd, hdouble⟩ := scanNext_exact hv h hst hidx (e := e)
  rw [edge_decScan_regs s hst hr, edgeDecScan_scanNext hidx he]
  refine ⟨fun h1 => ?_, fun h1 => ?_, fun hc => ?_, fun hc => ?_, idx_pred_toNat hidx⟩
  · rw [hadd, bitOf, if_pos h1, Nat.one_mul]
  · rw [hadd, bitOf, if_neg h1, Nat.zero_mul, Nat.add_zero]
  · rw [hdouble, if_pos hc]
  · rw [hdouble, if_neg (by simp [hc])]

end Sys2Proof.Proofs
end

section
/-!
PROOFS. The statements about one step that name its every register: the step as the presented command, the timed
transmit states, the receive states, a delivery of an `RSEQ`, the inputs that are looked at and the host driver
(30_encoding.md, 40_send.md, 41_rbit.md, 42_rseq.md, 60_exceptions.md).
-/

namespace Sys2Proof.Proofs

open Sys2Proof.Machine Sys2Proof.Laws

/-! ### The step and the command (30_encoding.md R83, 60_exceptions.md R184) -/

/-- Settles O3: a presented command is what the step of an idle block runs (`step_accepts`). -/
theorem stepRunsPresentedCommand : Obligations.StepRunsPresentedCommand := by
  rintro s i - hst ⟨hr, hv, rfl⟩
  exact ⟨_, exec_eq_next _ s, step_accepts s hst hr hv⟩

/-- Settles O4: every step is an `edge`, which keeps the configuration and ends the cycle. -/
theorem stepAlwaysAnswers : Obligations.StepAlwaysAnswers :=
  fun s => ⟨edge s, step_eq_next s, edge_cfg s, edge_inputs s, edge_cycle s⟩

/-- Only `RSEQ` writes the buffer at its acceptance, and only element 0. -/
theorem acceptedRegs_memRead (c : Config) (r : Regs) (i : Instr) (j : Nat) (h : j ≠ 0 ∨ i ≠ .rseq) :
    memRead (acceptedRegs c r i).seq j = memRead r.seq j := by
  cases i with
  | rseq => exact memRead_memWrite_other r.seq 0 j .start (h.resolve_right (not_not_intro rfl))
  | _ => rfl

/-- A command leaves a busy block as it is. -/
theorem commanded_regs_cases (i : Instr) (s : State) :
    (commanded i s).regs = s.regs ∨ (commanded i s).regs = acceptedRegs s.cfg s.regs i := by
  by_cases hst : s.regs.st = .idle
  · exact .inr (commanded_regs i s hst)
  · exact .inl (congrArg State.regs (commanded_of_busy i s hst))

/-- Settles O11: the registers stay as they are or become those of `acceptedRegs` (`commanded_regs_cases`), which names
every register that a command writes. -/
theorem commandFrames : Obligations.CommandFrames := by
  intro i s t hexec
  obtain rfl : commanded i s = t := by simpa [exec_eq_next] using hexec
  have hregs := commanded_regs_cases i s
  obtain ⟨hpins, hbitres⟩ := acceptedRegs_frame s.cfg s.regs i
  refine ⟨⟨commanded_cfg i s, commanded_inputs i s, commanded_cycle i s⟩, ?_, ?_, fun j hj => ?_, ?_⟩
  · rcases hregs with e | e <;> rw [e]
    · exact ⟨rfl, rfl⟩
    · exact hpins
  · rcases hregs with e | e <;> rw [e]
    exact hbitres
  · rcases hregs with e | e <;> rw [e]
    exact acceptedRegs_memRead s.cfg s.regs i j hj
  · cases i with
    | send v => rcases hregs with e | e <;> rw [e] <;> exact ⟨⟨rfl, rfl⟩, ⟨rfl, rfl, rfl, rfl⟩, ⟨rfl, rfl, rfl⟩⟩
    | rbit => rcases hregs with e | e <;> rw [e] <;> exact ⟨⟨rfl, rfl, rfl⟩, ⟨rfl, rfl, rfl, rfl⟩, ⟨rfl, rfl, rfl⟩⟩
    | rseq => rcases hregs with e | e <;> rw [e] <;> exact ⟨⟨rfl, rfl, rfl⟩, ⟨rfl, rfl, rfl⟩⟩
    | dec => rcases hregs with e | e <;> rw [e] <;> exact ⟨⟨rfl, rfl, rfl⟩, ⟨rfl, rfl⟩, ⟨rfl, rfl, rfl, rfl⟩⟩

/-! ### The inputs that are looked at (60_exceptions.md R175) -/

/-- Outside the two receive states no rule reads the sample of `DataIn`. -/
theorem edgeRegs_din (c : Config) (r : Regs) (a b : Bool) (hst : ¬ (r.st = .rxWait ∨ r.st = .rxHigh)) :
    edgeRegs c r a = edgeRegs c r b := by
  cases h : r.st <;> simp only [edgeRegs, h]
  case rxWait => exact absurd (.inl h) hst
  case rxHigh => exact absurd (.inr h) hst

/-- Settles O12: `edge_withInput` lists what an edge reads: under reset nothing else, at an acceptance the command, at
an edge of the sequencer the sample, and that in the receive states only (`edgeRegs_din`). -/
theorem onlyExaminedInputsMatter : Obligations.OnlyExaminedInputsMatter := by
  intro s i j hrst hport hdin
  rw [step_eq_next, step_eq_next, edge_withInput, edge_withInput, ← hrst]
  cases hr : i.rst with
  | true => rfl
  | false =>
    have hedge : edgeRegs s.cfg s.regs i.din = edgeRegs s.cfg s.regs j.din := by
      by_cases hrx : s.regs.st = .rxWait ∨ s.regs.st = .rxHigh
      · rw [hdin hrx hr]
      · exact edgeRegs_din _ _ _ _ hrx
    by_cases hst : s.regs.st = .idle
    · obtain ⟨hvalid, hcmd⟩ := hport hst hr
      rw [hedge, ← hvalid]
      cases hv : i.cmdValid with
      | true => rw [hcmd hv]
      | false => simp
    · simp [hst, hedge]

/-! ### The timed transmit states (40_send.md R101 to R106) -/

theorem shiftOut_eq_shiftLeft (sh : Byte) : shiftOut sh = sh <<< 1 := by
  rw [shiftOut, BitVec.shiftLeft_eq_concat_of_lt (by decide)]
  rfl

theorem shiftOut_toNat (sh : Byte) : (shiftOut sh).toNat = 2 * sh.toNat % 256 := by
  rw [shiftOut_eq_shiftLeft, BitVec.toNat_shiftLeft, Nat.shiftLeft_eq, Nat.mul_comm]

/-- Settles O17: the two branches of the rule of `TX_PRE`. -/
theorem txPreEdge : Obligations.TxPreEdge := by
  intro s hst hr
  refine ⟨edge s, step_eq_next s, ?_⟩
  rw [edge_busy_regs s hr (by simp [hst]), edgeRegs, hst]
  refine ⟨fun hdly => ?_, edgeTxPre_count s.cfg s.regs⟩
  simp only [edgeTxPre_last s.cfg s.regs hdly]
  exact ⟨rfl, shiftOut_toNat s.regs.sh⟩

/-- The next bit of a byte enters `DataOut` and the byte is shifted left (40_send.md R102). -/
theorem loadBit_eq (r : Regs) :
    loadBit r =
      { r with dataOut := r.sh.getLsbD 7, sh := r.sh <<< 1, nbit := r.nbit - 1, dly := 0, st := .txData } := by
  rw [loadBit, shiftOut_eq_shiftLeft]
  rfl

/-- Settles O19: the branches of the rules of `TX_LOW`, `TX_HIGH` and `TX_POST`; the load is `loadBit_eq`. -/
theorem txHoldEdges : Obligations.TxHoldEdges := by
  intro s hr
  refine ⟨edge s, step_eq_next s, fun hst => ?_, fun hst => ?_, fun hst => ?_⟩ <;>
    rw [edge_busy_regs s hr (by simp [hst]), edgeRegs, hst]
  · rfl
  · rw [← loadBit_eq]
    rfl
  · rfl

/-! ### The receive states (41_rbit.md R121, R122) -/

theorem deliver_timeout_counters (c : Config) (r : Regs) :
    (deliver c r .timeout).wcnt = r.wcnt ∧ (deliver c r .timeout).dcnt = r.dcnt := by
  by_cases hop : r.op = opRseq
  · rw [deliver_rseq_timeout c r hop]
    exact ⟨rfl, rfl⟩
  · rw [deliver_single c r .timeout hop]
    exact ⟨rfl, rfl⟩

/-- Settles O22: the three branches of the rule of `RX_WAIT`. -/
theorem rxWaitEdge : Obligations.RxWaitEdge := by
  intro s hst hr
  refine ⟨edge s, step_eq_next s, ?_⟩
  rw [edge_busy_regs s hr (by simp [hst]), edgeRegs, hst]
  refine ⟨fun hdin => ?_, fun hdin hw => ?_, fun hdin hw => ?_⟩ <;> simp only [hdin]
  · exact edgeRxWait_rise s.cfg s.regs
  · exact edgeRxWait_wait s.cfg s.regs hw
  · rw [edgeRxWait_deadline s.cfg s.regs hw]
    exact ⟨deliver_bitres _ _ _, deliver_timeout_st _ _, deliver_timeout_counters _ _⟩

/-- Settles O24: the two branches of the rule of `RX_HIGH`; the count is `countHigh_toNat`, and a delivery leaves the
state. -/
theorem rxHighEdge : Obligations.RxHighEdge := by
  intro s hv hst hr
  refine ⟨edge s, step_eq_next s, ?_⟩
  rw [edge_busy_regs s hr (by simp [hst]), edgeRegs, hst]
  obtain ⟨-, -, -, -, ⟨-, -, -, hnoise⟩, -⟩ := hv
  refine ⟨fun hdin => ?_, fun hdin => ?_⟩ <;> simp only [hdin]
  · rw [edgeRxHigh_count]
    exact ⟨rfl, countHigh_toNat s.cfg s.regs.dcnt hnoise⟩
  · rw [edgeRxHigh_fall]
    refine ⟨deliver_bitres _ _ _, ?_⟩
    rcases deliver_st s.cfg s.regs (classify s.cfg s.regs.dcnt.toNat) with e | e <;> simp [e]

/-- Settles O26: each row lies in the range of one class, by the `iff` lemmas of `classify` and the order of the
thresholds. -/
theorem classifyBoundaries : Obligations.ClassifyBoundaries := by
  intro c hv
  have hnoise := classify_eq_noise_iff c
  have hone := classify_eq_one_iff c hv
  have hzero := classify_eq_zero_iff c hv
  obtain ⟨-, -, -, -, ⟨hpos, hlow, hmid, -⟩, -, -⟩ := hv
  refine ⟨(hnoise _).2 (by omega), (hnoise _).2 (by omega), (hone _).2 (by omega), (hone _).2 (by omega), ?_, ?_,
    (hnoise _).2 (by omega)⟩
  · split
    · exact (hzero _).2 (by omega)
    · exact (hnoise _).2 (by omega)
  · split
    · exact (hzero _).2 (by omega)
    · exact (hone _).2 (by omega)

/-! ### A delivery of an `RSEQ` (42_rseq.md R141 to R143) -/

/-- The edge that ends a pulse. -/
theorem edge_pulse_end_regs (s : State) (hst : s.regs.st = .rxHigh) (hr : s.input.rst = false)
    (hdin : s.input.din = false) :
    (edge s).regs = deliver s.cfg s.regs (classify s.cfg s.regs.dcnt.toNat) := by
  rw [edge_busy_regs s hr (by simp [hst]), edgeRegs, hst, hdin]
  exact edgeRxHigh_fall s.cfg s.regs

/-- Settles O30: a pulse is stored at `LEN`, which the invariant puts inside the buffer, or dropped
(`deliver_rseq_stored`, `deliver_rseq_dropped`). -/
theorem rseqStoresPulse : Obligations.RseqStoresPulse := by
  rintro s ⟨hv, h⟩ hst hop hr hdin tag
  refine ⟨edge s, step_eq_next s, ?_⟩
  rw [edge_pulse_end_regs s hst hr hdin]
  have hroom := len_lt_of_open hv h (open_of_receiving h hop (.inr hst))
  have hdepth : s.cfg.seqDepth ≤ 34 := by
    obtain ⟨-, -, -, -, -, -, -, hdepth⟩ := hv
    exact hdepth
  by_cases hl : s.regs.len.toNat < s.cfg.seqDepth - 1
  · rw [deliver_rseq_stored s.cfg s.regs tag hop (classify_ne_timeout _ _) hl]
    exact ⟨rfl, fun a => memRead_memWrite_other _ _ a _,
      fun _ => ⟨memRead_memWrite_same _ _ _ (by rwa [seq_length_of_inv h]), toNat_succ_of_lt _ (by omega), rfl⟩,
      fun hfull => absurd hl hfull⟩
  · rw [deliver_rseq_dropped s.cfg s.regs tag hop (classify_ne_timeout _ _) hl]
    exact ⟨rfl, fun _ _ => rfl, fun hfree => absurd hfree hl, fun _ => ⟨rfl, rfl, rfl⟩⟩

/-- A receive edge of an `RSEQ` that returns to `IDLE` is the one that reaches the deadline. -/
theorem Tick.rseq_ends {c : Config} {r r' : Regs} {din : Bool} (ht : Tick c r din r')
    (hst : r.st = .rxWait ∨ r.st = .rxHigh) (hop : r.op = opRseq) (hend : r'.st = .idle) :
    r.st = .rxWait ∧ din = false ∧ r.wcnt.toNat + 1 = c.deadline := by
  cases ht with
  | deadline hst hdin hw => exact ⟨hst, hdin, hw⟩
  | pulseEnd hst hdin =>
    rw [deliver_rseq_pulse_st c r _ hop (classify_ne_timeout _ _)] at hend
    cases hend
  | pulseStart | load | clockFall | clockRise | lastCellEnd => cases hend
  | idle | count | wait | pulse => rcases hst with e | e <;> exact absurd (e.symm.trans hend) (by decide)
  | frameEnd h | scanEnd h | scan h => simp [h] at hst

/-- The edge at which a waiting receiveBit reaches the deadline. -/
theorem edge_deadline_regs (s : State) (hst : s.regs.st = .rxWait) (hr : s.input.rst = false)
    (hdin : s.input.din = false) (hw : s.regs.wcnt.toNat + 1 = s.cfg.deadline) :
    (edge s).regs = deliver s.cfg { s.regs with wcnt := s.regs.wcnt + 1 } .timeout := by
  rw [edge_busy_regs s hr (by simp [hst]), edgeRegs, hst, hdin]
  exact edgeRxWait_deadline s.cfg s.regs hw

/-- Settles O31: only the deadline ends an `RSEQ` (`Tick.rseq_ends`), and it does; the shape of the stream is that of
the invariant, which the edge keeps (`edge_inv`), in `IDLE`. -/
theorem rseqEndsByTimeout : Obligations.RseqEndsByTimeout := by
  intro s t hinv hst hop hr hstep
  obtain rfl := (step_eq_next_iff s t).1 hstep
  have hends := (edge_busy_tick s hr (by rcases hst with e | e <;> simp [e])).rseq_ends hst hop
  refine ⟨⟨hends, fun ⟨hwait, hdin, hw⟩ => ?_⟩, fun hidle => ?_⟩
  · rw [edge_deadline_regs s hwait hr hdin hw]
    exact deliver_timeout_st _ _
  · obtain ⟨hwait, hdin, hw⟩ := hends hidle
    obtain ⟨-, h⟩ := edge_inv hinv
    rw [edge_cfg] at h
    have hclosed := closed_of_not_receiving h (by simp [hidle])
    obtain ⟨hlen, hlast, hpulses⟩ := h.closedShape hclosed
    obtain ⟨-, hle, -⟩ := h.lenRange
    refine ⟨h.startMarker, hlast, hpulses, hlen, hle, hclosed, ?_⟩
    obtain ⟨⟨-, -, -, -, -, ⟨-, hbound⟩, -⟩, hregs⟩ := hinv
    obtain ⟨-, hzero, -⟩ := hregs.dcntRange
    have hcount : (s.regs.wcnt + 1).toNat = s.regs.wcnt.toNat + 1 := by bv_omega
    obtain ⟨hwcnt, hdcnt⟩ := deliver_timeout_counters s.cfg { s.regs with wcnt := s.regs.wcnt + 1 }
    rw [edge_deadline_regs s hwait hr hdin hw, deliver_bitres, hwcnt, hdcnt]
    exact ⟨rfl, hzero hwait, hcount.trans hw⟩

/-! ### The standard host driver (30_encoding.md R91) -/

theorem driverInput_idle (w : CmdWord) (p : List CmdWord) (s : State) (din : Bool) (hst : s.regs.st = .idle) :
    driverInput (w :: p) s din =
      { rst := false, cmdValid := true, cmd := w, din := din, raddr := s.input.raddr } := by
  simp only [driverInput, hst]

theorem driverInput_busy (p : List CmdWord) (s : State) (din : Bool) (hst : s.regs.st ≠ .idle) :
    driverInput p s din =
      { rst := false, cmdValid := false, cmd := s.input.cmd, din := din, raddr := s.input.raddr } := by
  cases h : s.regs.st <;> simp_all [driverInput]

theorem programEnded_iff (p : List CmdWord) (s : State) : programEnded p s = true ↔ p = [] ∧ s.regs.st = .idle := by
  simp [programEnded]

/-- One cycle of the driver's run while the program has not ended. -/
theorem drive_cons (p : List CmdWord) (din : Bool) (dins : List Bool) (s : State) (h : ¬ (p = [] ∧ s.regs.st = .idle)) :
    drive p (din :: dins) s = drive (driverRest p s) dins (edge (s.withInput (driverInput p s din))) := by
  rw [drive, if_neg (by rwa [programEnded_iff]), step_eq_next]

/-- Settles O52: in an idle cycle the driver's input presents the next command (`driverInput_idle`), so the edge accepts
it; in a busy cycle it presents none (`driverInput_busy`). -/
theorem driverIssuesBackToBack : Obligations.DriverIssuesBackToBack := by
  refine ⟨fun w p din dins s hst => ?_, fun p din dins s hb => ?_, fun dins s hst => ?_⟩
  · rw [drive_cons _ _ _ _ (by simp), driverRest, if_pos hst, driverInput_idle w p s din hst]
    refine ⟨_, exec_eq_next _ _, ?_⟩
    rw [edge_command (s.withInput _) (by rw [withInput_input]) hst (by rw [withInput_input]), withInput_input]
    rfl
  · have hst := (busy_iff _).1 hb
    rw [drive_cons _ _ _ _ (fun h => hst h.2), driverRest, if_neg hst, driverInput_busy p s din hst]
    exact ⟨rfl, rfl, _, step_eq_next _, rfl⟩
  · cases dins with
    | nil => rfl
    | cons din dins => rw [drive, if_pos ((programEnded_iff _ _).2 ⟨rfl, hst⟩)]

end Sys2Proof.Proofs
end

section
/-!
PROOFS. The statements about the value reconstructor (43_dec.md): the number that a list of tags writes, and the run of
a `DEC` from its acceptance to the end of its scan.
-/

namespace Sys2Proof.Proofs

open Sys2Proof.Machine Sys2Proof.Laws

/-! ### The number that the tags write (43_dec.md R158, R160, R162, R163) -/

theorem decodeElements_append_noise (xs ys : List Tag) :
    decodeElements (xs ++ .noise :: ys) = decodeElements (xs ++ ys) := by
  rw [decodeElements, decodeElements, List.filter_append, List.filter_append, List.filter_cons_of_neg (by decide)]

theorem decodeElements_of_no_digit (es : List Tag) (h : ∀ e ∈ es, contributes e = false) : decodeElements es = 0 := by
  rw [decodeElements, List.filter_eq_nil_iff.2 fun e he => by simp [h e he]]
  rfl

theorem decodeElements_zero_cons (es : List Tag) : decodeElements (.zero :: es) = decodeElements es := by
  rw [decodeElements, List.filter_cons_of_pos (by decide), digitsValue, bitOf, if_neg (by decide), Nat.zero_mul,
    Nat.zero_add, decodeElements]

/-- Settles O39: the three lemmas above. -/
theorem noiseAndZerosInDecode : Obligations.NoiseAndZerosInDecode :=
  ⟨decodeElements_append_noise, decodeElements_of_no_digit, decodeElements_zero_cons⟩

/-- One more element at the end is one more digit, or none. -/
theorem decodeElements_snoc (es : List Tag) (e : Tag) :
    decodeElements (es ++ [e]) = if contributes e then 2 * decodeElements es + bitOf e else decodeElements es := by
  rw [decodeElements, List.filter_append]
  cases hc : contributes e with
  | true => rw [if_pos rfl, List.filter_cons_of_pos hc, List.filter_nil, digitsValue_snoc, decodeElements]
  | false => simp [hc, decodeElements]

/-- Settles O37, by induction on the list from its end: both forms take one more element in the same way. -/
theorem decodeFormsAgree : Obligations.DecodeFormsAgree := by
  intro es
  induction es using List.reverseRecOn with
  | nil => rfl
  | append_singleton es e ih =>
    rw [decodeElements_snoc, ← ih, decodeForward, List.foldl_append, List.foldl_cons, List.foldl_nil, decodeForward]

/-! ### Runs -/

/-- The block is busy for `n` cycles after the current one exactly if none of the states after the first `n` edges is
`IDLE`. -/
theorem busyFor_iff (s : State) (n : Nat) : s.BusyFor n ↔ ∀ k, k < n → (edges k (edge s)).regs.st ≠ .idle := by
  unfold State.BusyFor
  constructor
  · intro h k hk
    obtain ⟨t, ht, hb⟩ := h (k + 1) (by omega) (by omega)
    obtain rfl : edges (k + 1) s = t := by simpa [stepN_eq_next] using ht
    exact (busy_iff _).1 hb
  · intro h k h1 hk
    obtain ⟨j, rfl⟩ := Nat.exists_eq_add_of_le' h1
    exact ⟨edges (j + 1) s, stepN_eq_next _ s, (busy_iff _).2 (h j (by omega))⟩

/-- After the current edge there is one cycle less without reset. -/
theorem noReset_edge {s : State} {n : Nat} (h : s.NoReset (n + 1)) : (edge s).NoReset n := fun k hk => by
  rw [edge_inputAt]
  exact h (k + 1) (by omega)

theorem noReset_edges {s : State} (m n : Nat) (h : s.NoReset (m + n)) : (edges m s).NoReset n := fun k hk => by
  rw [edges_inputAt]
  exact h (m + k) (by omega)

theorem noReset_of_le {s : State} {m n : Nat} (hmn : m ≤ n) (h : s.NoReset n) : s.NoReset m :=
  fun k hk => h k (by omega)

theorem dinFrom_edge {s : State} {k : Nat} {bits : List Bool} (h : s.DinFrom (k + 1) bits) :
    (edge s).DinFrom k bits := fun j hj => by
  rw [edge_inputAt, Nat.add_right_comm]
  exact h j hj

theorem dinFrom_edges {s : State} (m : Nat) {k : Nat} {bits : List Bool} (h : s.DinFrom (m + k) bits) :
    (edges m s).DinFrom k bits := fun j hj => by
  rw [edges_inputAt, ← Nat.add_assoc]
  exact h j hj

/-! ### The scan (43_dec.md R156 to R158) -/

/-- The accumulator is the number that the contributing elements scanned so far write. -/
def accExact (r : Regs) : Prop := r.acc.toNat = digitsValue (r.scanned.filter contributes)

/-- Each element of the scan is one more digit at the most significant end, or none. -/
theorem scanNext_accExact {c : Config} {r : Regs} (hv : c.Valid) (h : r.Inv c) (hst : r.st = .decScan)
    (hidx : r.idx ≠ 0) {e : Tag} (he : r.seq[r.idx.toNat]? = some e) (hacc : accExact r) :
    accExact (scanNext r e) := by
  obtain ⟨hadd, -⟩ := scanNext_exact hv h hst hidx (e := e)
  obtain ⟨-, hweight, -, -⟩ := h.scan hst
  rw [accExact, hadd, scanNext_scanned h hst hidx he, hweight, hacc]
  cases hc : contributes e with
  | true => rw [List.filter_cons_of_pos hc, digitsValue, Nat.add_comm]
  | false =>
    have hbit : bitOf e = 0 := if_neg (by rintro rfl; cases hc)
    rw [List.filter_cons_of_neg (by simp [hc]), hbit, Nat.zero_mul, Nat.add_zero]

/-- The scan runs down to index 0, one element a cycle, and keeps the accumulator exact; it writes no register but the
three of the decoder. -/
theorem edges_scan (m : Nat) (s : State) (h : s.Inv) (hst : s.regs.st = .decScan) (hidx : s.regs.idx.toNat = m)
    (hacc : accExact s.regs) (hr : s.NoReset m) :
    (∀ k, k ≤ m → (edges k s).regs.st = .decScan) ∧ accExact (edges m s).regs ∧
      (edges m s).regs =
        { s.regs with idx := 0, acc := (edges m s).regs.acc, weight := (edges m s).regs.weight } := by
  induction m generalizing s with
  | zero =>
    have hzero : s.regs.idx = 0 := BitVec.eq_of_toNat_eq hidx
    refine ⟨fun k hk => ?_, hacc, ?_⟩
    · obtain rfl := Nat.le_zero.1 hk
      exact hst
    · rw [← hzero]
      rfl
  | succ m ih =>
    have hinv := edge_inv h
    obtain ⟨hv, hregs⟩ := h
    have hne : s.regs.idx ≠ 0 := fun e => by rw [e] at hidx; cases hidx
    obtain ⟨e, he, -⟩ := scan_reads_pulse hregs hst hne
    have hedge : (edge s).regs = scanNext s.regs e := by
      rw [edge_decScan_regs s hst (hr 0 (by omega)), edgeDecScan_scanNext hne he]
    have hidx' : (edge s).regs.idx.toNat = m := by
      rw [hedge]
      exact (idx_pred_toNat hne).trans (by omega)
    have hst' : (edge s).regs.st = .decScan := by rw [hedge]; exact hst
    have hacc' : accExact (edge s).regs := by rw [hedge]; exact scanNext_accExact hv hregs hst hne he hacc
    obtain ⟨hbusy, hexact, hend⟩ := ih (edge s) hinv hst' hidx' hacc' (noReset_edge hr)
    refine ⟨fun k hk => ?_, hexact, ?_⟩
    · cases k with
      | zero => exact hst
      | succ k => exact hbusy k (by omega)
    · rw [hedge] at hend
      exact hend

/-- Once the index is 0 all elements between the start marker and the terminator have been scanned. -/
theorem scanned_eq_elements (r : Regs) (hidx : r.idx = 0) : r.scanned = r.elements := by
  rw [Regs.scanned, hidx]
  rfl

theorem elements_eq_of {r r' : Regs} (hseq : r'.seq = r.seq) (hlen : r'.len = r.len) : r'.elements = r.elements := by
  rw [Regs.elements, Regs.elements, hseq, hlen]

/-- The end of the scan: the value, the weight, and every other register as it was. -/
theorem edges_scan_end (m : Nat) (s : State) (h : s.Inv) (hst : s.regs.st = .decScan) (hidx : s.regs.idx.toNat = m)
    (hacc : accExact s.regs) (hr : s.NoReset (m + 1)) :
    let r := (edges (m + 1) s).regs
    r = { s.regs with idx := 0, acc := r.acc, weight := r.weight, st := .idle } ∧
      r.acc.toNat = decodeElements s.regs.elements ∧
      r.weight.toNat = 2 ^ (s.regs.elements.filter contributes).length := by
  obtain ⟨hbusy, hexact, hend⟩ := edges_scan m s h hst hidx hacc (noReset_of_le (by omega) hr)
  obtain ⟨-, hinv⟩ := edges_inv m h
  obtain ⟨-, hweight, -, -⟩ := hinv.scan (hbusy m le_rfl)
  have hzero : (edges m s).regs.idx = 0 := by rw [hend]
  have hstop : (edges (m + 1) s).regs = { (edges m s).regs with st := .idle } := by
    rw [edges_tick s m (hr m (by omega)) (by simp [hbusy m le_rfl]), edgeRegs, hbusy m le_rfl]
    exact edgeDecScan_stop _ _ hzero
  have helements : (edges m s).regs.scanned = s.regs.elements :=
    (scanned_eq_elements _ hzero).trans (elements_eq_of (by rw [hend]) (by rw [hend]))
  rw [accExact, helements] at hexact
  rw [helements] at hweight
  simp only [hstop]
  exact ⟨congrArg (fun r : Regs => { r with st := .idle }) hend, hexact, hweight⟩

/-- Settles O36: the acceptance sets the index to `LEN - 2` with nothing scanned; the scan takes one cycle for each
element (`edges_scan`), and one more to stop (`edges_scan_end`). -/
theorem decReconstructsValue : Obligations.DecReconstructsValue := by
  intro s hinv hst hp hr
  obtain ⟨m, hm⟩ := Nat.exists_eq_add_of_le' (two_le_len_of_idle hinv.2 hst)
  have hedge := edge_presented_regs s .dec hst hp
  have hscan : (edge s).regs.st = .decScan := by rw [hedge]; rfl
  have hlen : (edge s).regs.len = s.regs.len := by rw [hedge]; rfl
  have hidx : (edge s).regs.idx.toNat = m := by
    rw [hedge]
    exact (BitVec.toNat_sub_of_le (two_le_len_of_idle hinv.2 hst)).trans (by rw [hm]; exact Nat.add_sub_cancel m 2)
  have hacc : accExact (edge s).regs := by
    rw [accExact, scanned_eq_nil _ (by rw [hlen, hidx]; omega), hedge]
    rfl
  rw [hm] at hr ⊢
  have hr' : (edge s).NoReset (m + 1) := noReset_edge hr
  obtain ⟨hbusy, -, -⟩ := edges_scan m (edge s) (edge_inv hinv) hscan hidx hacc (noReset_of_le (by omega) hr')
  obtain ⟨hend, hvalue, hweight⟩ := edges_scan_end m (edge s) (edge_inv hinv) hscan hidx hacc hr'
  rw [elements_eq_of (by rw [hedge]; rfl) hlen] at hvalue hweight
  refine ⟨(busyFor_iff _ _).2 fun k hk => by simp [hbusy k (by omega)], edges (m + 2) s, stepN_eq_next _ s, ?_,
    hvalue, hweight, ?_⟩
  · rw [hedge] at hend
    exact hend
  · rw [← hvalue, BitVec.ofNat_toNat, BitVec.setWidth_eq]
    rfl

end Sys2Proof.Proofs
end

section
/-!
PROOFS. The statements about the whole outbound frame (40_send.md R107 to R109): the run of a `SEND` through its settle
delay, its eight bit cells and its final delay.
-/

namespace Sys2Proof.Proofs

open Sys2Proof.Machine Sys2Proof.Laws

/-! ### The timed states -/

/-- The edge at the end of a timed transmit state that was entered with `DLY = m`: its rule at `DLY = 1`. -/
theorem count_end (s : State) (n m : Nat) (r : Regs) (st : SeqState) (hst : timedState st)
    (hpos : 1 ≤ m) (hm : m < 2 ^ 31) (h : (edges n s).regs = { r with st := st, dly := ticks m })
    (hr : s.NoReset (n + m)) :
    ∃ din, (edges (n + m) s).regs = edgeRegs s.cfg { r with st := st, dly := 1 } din := by
  obtain ⟨i, rfl⟩ := Nat.exists_eq_add_of_le' hpos
  have hlast := count_run s n (i + 1) r st hst hm h hr i (Nat.lt_succ_self i)
  rw [Nat.add_sub_cancel_left, show ticks 1 = 1 from rfl] at hlast
  refine ⟨(s.inputAt (n + i)).din, ?_⟩
  have hbusy : (edges (n + i) s).regs.st ≠ .idle := by
    rw [hlast]
    rcases hst with e | e | e | e <;> simp [e]
  rw [← Nat.add_assoc, edges_tick s (n + i) (hr _ (by omega)) hbusy, hlast]

/-! ### One bit cell (40_send.md R102 to R105) -/

/-- The registers in the first cycle of bit cell `j` of the frame of `v`, started from the registers `r`. -/
def cellRegs (r : Regs) (v : Byte) (j : Nat) : Regs :=
  { r with op := opSend, clockOut := true, dataOut := v.getLsbD (7 - j), sh := v <<< (j + 1),
           nbit := BitVec.ofNat 4 (7 - j), dly := 0, st := .txData }

/-- With `j` bits already taken, `load_bit` starts bit cell `j`. -/
theorem loadBit_cellRegs (r : Regs) (v : Byte) (j : Nat) (hj : j < 8) (hop : r.op = opSend) (hck : r.clockOut = true)
    (hsh : r.sh = v <<< j) (hnbit : r.nbit = BitVec.ofNat 4 (8 - j)) : loadBit r = cellRegs r v j := by
  have hbit : (v <<< j).getLsbD 7 = v.getLsbD (7 - j) := by
    rw [BitVec.getLsbD_shiftLeft, decide_eq_false (by omega : ¬ 7 < j)]
    simp
  have hcount : BitVec.ofNat 4 (8 - j) - 1 = BitVec.ofNat 4 (7 - j) := by
    apply BitVec.eq_of_toNat_eq
    rw [BitVec.toNat_sub, BitVec.toNat_ofNat, BitVec.toNat_ofNat]
    simp
    omega
  rw [loadBit_eq, cellRegs, hsh, hnbit, hbit, hcount, ← BitVec.shiftLeft_add, ← hop, ← hck]

section Cell

variable {s : State} {n : Nat} {r : Regs} {v : Byte} {j : Nat} (hv : s.cfg.Valid)
  (hcell : (edges n s).regs = cellRegs r v j) (hr : s.NoReset (n + cellLength s.cfg))
include hv hcell hr

/-- The first hold of a bit cell, `ClockOut` deasserted. -/
theorem edges_cell_low (i : Nat) (hi : i < s.cfg.tHold) :
    (edges (n + 1 + i) s).regs =
      { cellRegs r v j with clockOut := false, st := .txLow, dly := ticks (s.cfg.tHold - i) } := by
  rw [cellLength] at hr
  have hfall : (edges (n + 1) s).regs =
      { cellRegs r v j with clockOut := false, st := .txLow, dly := ticks s.cfg.tHold } := by
    rw [edges_tick s n (hr n (by omega)) (by rw [hcell]; exact SeqState.noConfusion), hcell]
    rfl
  obtain ⟨-, -, ⟨-, hhold⟩, -⟩ := hv
  exact count_run s (n + 1) s.cfg.tHold { cellRegs r v j with clockOut := false } .txLow (.inr (.inl rfl)) hhold hfall
    (fun k hk => hr k (by omega)) i hi

/-- The second hold of a bit cell, `ClockOut` reasserted. -/
theorem edges_cell_high_start :
    (edges (n + 1 + s.cfg.tHold) s).regs = { cellRegs r v j with st := .txHigh, dly := ticks s.cfg.tHold } := by
  have hlow := edges_cell_low hv hcell hr
  rw [cellLength] at hr
  obtain ⟨-, -, ⟨hpos, hhold⟩, -⟩ := hv
  obtain ⟨din, hend⟩ := count_end s (n + 1) s.cfg.tHold { cellRegs r v j with clockOut := false } .txLow
    (.inr (.inl rfl)) hpos hhold (hlow 0 hpos) (noReset_of_le (by omega) hr)
  exact hend

theorem edges_cell_high (i : Nat) (hi : i < s.cfg.tHold) :
    (edges (n + 1 + s.cfg.tHold + i) s).regs =
      { cellRegs r v j with st := .txHigh, dly := ticks (s.cfg.tHold - i) } := by
  have hstart := edges_cell_high_start hv hcell hr
  rw [cellLength] at hr
  obtain ⟨-, -, ⟨-, hhold⟩, -⟩ := hv
  exact count_run s (n + 1 + s.cfg.tHold) s.cfg.tHold (cellRegs r v j) .txHigh (.inr (.inr (.inl rfl))) hhold hstart
    (fun k hk => hr k (by omega)) i hi

/-- The edge at the end of a bit cell. -/
theorem edges_cell_end :
    ∃ din, (edges (n + cellLength s.cfg) s).regs =
      edgeRegs s.cfg { cellRegs r v j with st := .txHigh, dly := 1 } din := by
  have hstart := edges_cell_high_start hv hcell hr
  have hlen : n + cellLength s.cfg = n + 1 + s.cfg.tHold + s.cfg.tHold := by rw [cellLength]; omega
  obtain ⟨-, -, ⟨hpos, hhold⟩, -⟩ := hv
  rw [hlen] at hr ⊢
  exact count_end s _ s.cfg.tHold (cellRegs r v j) .txHigh (.inr (.inr (.inl rfl))) hpos hhold hstart hr

/-- After every cell but the last comes the next. -/
theorem edges_cell_next (hj : j < 7) : (edges (n + cellLength s.cfg) s).regs = cellRegs r v (j + 1) := by
  obtain ⟨din, hend⟩ := edges_cell_end hv hcell hr
  have hnbit : BitVec.ofNat 4 (7 - j) ≠ 0 := fun e => by
    have hval := congrArg BitVec.toNat e
    rw [BitVec.toNat_ofNat] at hval
    simp at hval
    omega
  rw [hend]
  exact (edgeTxHigh_load s.cfg _ rfl hnbit).trans
    (loadBit_cellRegs _ v (j + 1) (by omega) rfl rfl rfl (by rw [Nat.add_comm j 1, ← Nat.sub_sub]; rfl))

/-- After the last cell comes the final delay. -/
theorem edges_cell_last (hj : j = 7) :
    (edges (n + cellLength s.cfg) s).regs = { cellRegs r v 7 with st := .txPost, dly := ticks s.cfg.tPost } := by
  obtain ⟨din, hend⟩ := edges_cell_end hv hcell hr
  subst hj
  rw [hend]
  exact edgeTxHigh_end s.cfg _ rfl rfl

end Cell

/-! ### The frame (40_send.md R107) -/

section Frame

variable {s : State} {v : Byte} (h : s.Inv) (hst : s.regs.st = .idle) (hp : s.Presents (.send v))
  (hr : s.NoReset (sendCycles s.cfg + 1))
include h hst hp hr

/-- The settle delay. -/
theorem edges_send_pre (i : Nat) (hi : i < s.cfg.tPre) :
    (edges (1 + i) s).regs =
      { s.regs with op := opSend, sh := v, nbit := 8, st := .txPre, dly := ticks (s.cfg.tPre - i) } := by
  have hstart : (edges 1 s).regs =
      { s.regs with op := opSend, sh := v, nbit := 8, st := .txPre, dly := ticks s.cfg.tPre } :=
    edge_presented_regs s (.send v) hst hp
  obtain ⟨⟨-, ⟨-, hpre⟩, -⟩, -⟩ := h
  rw [sendCycles] at hr
  exact count_run s 1 s.cfg.tPre { s.regs with op := opSend, sh := v, nbit := 8 } .txPre (.inl rfl) hpre hstart
    (fun k hk => hr k (by omega)) i hi

/-- The first bit cell. -/
theorem edges_send_first_cell : (edges (1 + s.cfg.tPre) s).regs = cellRegs s.regs v 0 := by
  have hpre := edges_send_pre h hst hp hr
  have hclock : s.regs.clockOut = true := clockOut_of_inv h.2 (by simp [hst])
  obtain ⟨⟨-, ⟨hpos, hbound⟩, -⟩, -⟩ := h
  rw [sendCycles] at hr
  obtain ⟨din, hend⟩ := count_end s 1 s.cfg.tPre { s.regs with op := opSend, sh := v, nbit := 8 } .txPre (.inl rfl)
    hpos hbound (hpre 0 hpos) (noReset_of_le (by omega) hr)
  rw [hend]
  exact (edgeTxPre_last s.cfg _ rfl).trans
    (loadBit_cellRegs _ v 0 (by decide) rfl hclock (BitVec.shiftLeft_zero v).symm rfl)

/-- Every bit cell. -/
theorem edges_send_cell (j : Nat) (hj : j < 8) :
    (edges (1 + s.cfg.tPre + j * cellLength s.cfg) s).regs = cellRegs s.regs v j := by
  induction j with
  | zero => simpa using edges_send_first_cell h hst hp hr
  | succ j ih =>
    have hmul : (j + 1) * cellLength s.cfg ≤ 8 * cellLength s.cfg := Nat.mul_le_mul_right _ (by omega)
    rw [Nat.succ_mul] at hmul ⊢
    rw [← Nat.add_assoc]
    rw [sendCycles] at hr
    exact edges_cell_next h.1 (ih (by omega)) (noReset_of_le (by omega) hr) (by omega)

/-- The final delay. -/
theorem edges_send_post_start :
    (edges (1 + s.cfg.tPre + 8 * cellLength s.cfg) s).regs =
      { cellRegs s.regs v 7 with st := .txPost, dly := ticks s.cfg.tPost } := by
  have hcell := edges_send_cell h hst hp hr 7 (by decide)
  rw [sendCycles] at hr
  have hlast := edges_cell_last h.1 hcell (noReset_of_le (by omega) hr) rfl
  rwa [Nat.add_assoc, ← Nat.succ_mul] at hlast

theorem edges_send_post (i : Nat) (hi : i < s.cfg.tPost) :
    (edges (1 + s.cfg.tPre + 8 * cellLength s.cfg + i) s).regs =
      { cellRegs s.regs v 7 with st := .txPost, dly := ticks (s.cfg.tPost - i) } := by
  have hstart := edges_send_post_start h hst hp hr
  rw [sendCycles] at hr
  obtain ⟨⟨-, -, -, ⟨-, hpost⟩, -⟩, -⟩ := h
  exact count_run s _ s.cfg.tPost (cellRegs s.regs v 7) .txPost (.inr (.inr (.inr rfl))) hpost hstart
    (fun k hk => hr k (by omega)) i hi

/-- The registers after the frame (40_send.md R109): all eight bits have left `SH`. -/
theorem edges_send_end :
    (edges (sendCycles s.cfg + 1) s).regs =
      { s.regs with op := opSend, clockOut := true, dataOut := v.getLsbD 0, sh := 0, nbit := 0, dly := 0,
                    st := .idle } := by
  have hstart := edges_send_post_start h hst hp hr
  have hlen : sendCycles s.cfg + 1 = 1 + s.cfg.tPre + 8 * cellLength s.cfg + s.cfg.tPost := by rw [sendCycles]; omega
  obtain ⟨⟨-, -, -, ⟨hpos, hpost⟩, -⟩, -⟩ := h
  rw [hlen] at hr ⊢
  obtain ⟨din, hend⟩ := count_end s _ s.cfg.tPost (cellRegs s.regs v 7) .txPost (.inr (.inr (.inr rfl))) hpos hpost
    hstart hr
  have hempty : v <<< 8 = 0 := BitVec.shiftLeft_eq_zero (by decide)
  rw [hend, ← hempty]
  rfl

/-- The sequencer state and the pins in cycle `o` of bit cell `j`. -/
theorem edges_send_cell_pins (j o : Nat) (hj : j < 8) (ho : o < cellLength s.cfg) :
    let r := (edges (1 + s.cfg.tPre + j * cellLength s.cfg + o) s).regs
    (r.st, r.clockOut, r.dataOut) =
      if o = 0 then (.txData, true, v.getLsbD (7 - j))
      else if o ≤ s.cfg.tHold then (.txLow, false, v.getLsbD (7 - j))
      else (.txHigh, true, v.getLsbD (7 - j)) := by
  intro r
  have hmul : (j + 1) * cellLength s.cfg ≤ 8 * cellLength s.cfg := Nat.mul_le_mul_right _ hj
  rw [Nat.succ_mul] at hmul
  have hcell := edges_send_cell h hst hp hr j hj
  rw [sendCycles] at hr
  have hr' := noReset_of_le (m := 1 + s.cfg.tPre + j * cellLength s.cfg + cellLength s.cfg) (by omega) hr
  split
  next hzero =>
    subst hzero
    simp only [r, Nat.add_zero, hcell]
    rfl
  next hzero =>
    rw [cellLength] at ho
    split
    next hlow =>
      have hrun := edges_cell_low h.1 hcell hr' (o - 1) (by omega)
      rw [Nat.add_assoc, Nat.add_sub_cancel' (by omega)] at hrun
      simp only [r, hrun]
      rfl
    next hlow =>
      have hrun := edges_cell_high h.1 hcell hr' (o - (1 + s.cfg.tHold)) (by omega)
      rw [Nat.add_assoc _ 1, Nat.add_assoc _ (1 + s.cfg.tHold), Nat.add_sub_cancel' (by omega)] at hrun
      simp only [r, hrun]
      rfl

/-- The sequencer state and the pins in every cycle of the frame are those of the closed form. -/
theorem edges_send_frameAt (k : Nat) (h1 : 1 ≤ k) (hk : k ≤ sendCycles s.cfg + 1) :
    ((edges k s).regs.st, (edges k s).regs.clockOut, (edges k s).regs.dataOut) =
      frameAt s.cfg v s.regs.dataOut k := by
  have hclock : s.regs.clockOut = true := clockOut_of_inv h.2 (by simp [hst])
  unfold frameAt
  split
  next hpre =>
    obtain ⟨i, rfl⟩ := Nat.exists_eq_add_of_le h1
    simp only [edges_send_pre h hst hp hr i (by omega), hclock]
  next hpre =>
    split
    next hcells =>
      have hpos : 0 < cellLength s.cfg := Nat.add_pos_left one_pos _
      obtain ⟨i, rfl⟩ := Nat.exists_eq_add_of_le (show 1 + s.cfg.tPre ≤ k by omega)
      have hi : 1 + s.cfg.tPre + i - s.cfg.tPre - 1 = i := by omega
      have hj : i / cellLength s.cfg < 8 := Nat.div_lt_of_lt_mul (by rw [Nat.mul_comm]; omega)
      have hpins := edges_send_cell_pins h hst hp hr _ _ hj (Nat.mod_lt i hpos)
      rw [Nat.add_assoc _ (_ * _), Nat.div_add_mod'] at hpins
      rw [hi]
      exact hpins
    next hcells =>
      split
      next hpost =>
        obtain ⟨i, rfl⟩ := Nat.exists_eq_add_of_le (show 1 + s.cfg.tPre + 8 * cellLength s.cfg ≤ k by omega)
        rw [sendCycles] at hpost
        simp only [edges_send_post h hst hp hr i (by omega)]
        rfl
      next hpost =>
        obtain rfl : k = sendCycles s.cfg + 1 := by omega
        simp only [edges_send_end h hst hp hr]

end Frame

/-- Settles O20: `edges_send_frameAt`. -/
theorem sendWaveform : Obligations.SendWaveform :=
  fun s _ h hst hp hr k h1 hk => ⟨edges k s, stepN_eq_next k s, edges_send_frameAt h hst hp hr k h1 hk⟩

/-- The closed form is busy up to the last cycle of the final delay. -/
theorem frameAt_busy (c : Config) (v : Byte) (before : Bool) (k : Nat) (hk : k ≤ sendCycles c) :
    (frameAt c v before k).1 ≠ .idle := by
  unfold frameAt
  rw [if_pos hk]
  split
  · exact SeqState.noConfusion
  · split
    · dsimp only
      split
      · exact SeqState.noConfusion
      · split <;> exact SeqState.noConfusion
    · exact SeqState.noConfusion

/-- Settles O21: the frame is busy in each of its `N_SEND` cycles (`frameAt_busy`), and the registers after it are those
of `edges_send_end`. -/
theorem sendCompletes : Obligations.SendCompletes := by
  intro s v h hst hp hr
  refine ⟨(busyFor_iff _ _).2 fun k hk => ?_, _, stepN_eq_next _ s, edges_send_end h hst hp hr⟩
  have hframe := congrArg Prod.fst (edges_send_frameAt h hst hp hr (k + 1) (by omega) (by omega))
  exact hframe.trans_ne (frameAt_busy _ _ _ _ hk)

end Sys2Proof.Proofs
end

section
/-!
PROOFS. The statements about whole receive operations (41_rbit.md R125 to R129): a receiveBit from its start to the end
of the pulse, and the two ends of an `RBIT`.
-/

namespace Sys2Proof.Proofs

open Sys2Proof.Machine Sys2Proof.Laws

/-! ### A receiveBit that sees a pulse -/

theorem dinFrom_left {s : State} {k : Nat} {a b : List Bool} (h : s.DinFrom k (a ++ b)) : s.DinFrom k a :=
  ((dinFrom_append s k a b).1 h).1

theorem dinFrom_right {s : State} {k : Nat} {a b : List Bool} (h : s.DinFrom k (a ++ b)) :
    s.DinFrom (k + a.length) b := ((dinFrom_append s k a b).1 h).2

/-- A single sample. -/
theorem din_of_singleton {s : State} {k : Nat} {b : Bool} (h : s.DinFrom k [b]) : (s.inputAt k).din = b := by
  simpa using dinFrom_replicate s k 1 b h 0 one_pos

/-- The samples of a receiveBit that sees a pulse: the wait, the pulse, and the deasserted sample that ends it. -/
def bitSamples (q : Nat × Nat) : List Bool := List.replicate q.1 false ++ List.replicate q.2 true ++ [false]

theorem length_bitSamples (q : Nat × Nat) : (bitSamples q).length = q.1 + q.2 + 1 := by
  simp [bitSamples, Nat.add_assoc]

section Pulse

variable {s : State} (hv : s.cfg.Valid) (hst : s.regs.st = .rxWait) (hw : s.regs.wcnt = 0) {g d : Nat}
  (hg : g + 1 ≤ s.cfg.deadline) (hd : 1 ≤ d) (hr : s.NoReset (g + d + 1)) (hdin : s.DinFrom 0 (bitSamples (g, d)))
include hv hst hw hg hd hr hdin

/-- While the pulse lasts the counters hold the wait and the duration so far, and no other register moves. -/
theorem edges_pulse (j : Nat) (h1 : 1 ≤ j) (hj : j ≤ d) :
    (edges (g + j) s).regs =
      { s.regs with wcnt := ticks g, dcnt := ticks (min j (s.cfg.tNoiseHigh + 1)), st := .rxHigh } := by
  obtain ⟨d, rfl⟩ := Nat.exists_eq_add_of_le hd
  obtain ⟨j, rfl⟩ := Nat.exists_eq_add_of_le h1
  have hpulse := dinFrom_left hdin
  have hhigh := dinFrom_replicate s _ _ true (dinFrom_right hpulse)
  rw [List.replicate_add, ← List.append_assoc] at hpulse
  have hrise : (edges (g + 1) s).regs =
      { s.regs with wcnt := ticks g, dcnt := ticks (min 1 (s.cfg.tNoiseHigh + 1)), st := .rxHigh } := by
    rw [edges_waiting_rise s hv hst hw g hg (noReset_of_le (by omega) hr) (dinFrom_left hpulse),
      Nat.min_eq_left (by omega)]
    rfl
  rw [← Nat.add_assoc]
  refine high_run s hv (g + 1) d 1 { s.regs with wcnt := ticks g } hrise (noReset_of_le (by omega) hr)
    (fun i hi => ?_) j (by omega)
  have hsample := hhigh (1 + i) (by omega)
  rwa [List.length_replicate, Nat.zero_add, ← Nat.add_assoc] at hsample

/-- The sample that ends the pulse delivers its class; saturating the duration does not change it. -/
theorem edges_pulse_end :
    (edges (g + d + 1) s).regs =
      deliver s.cfg
        { s.regs with wcnt := ticks g, dcnt := ticks (min d (s.cfg.tNoiseHigh + 1)), st := .rxHigh }
        (classify s.cfg d) := by
  have hhigh := edges_pulse hv hst hw hg hd hr hdin d hd le_rfl
  have hlow := din_of_singleton (dinFrom_right hdin)
  simp only [List.length_append, List.length_replicate, Nat.zero_add] at hlow
  obtain ⟨-, -, -, -, ⟨-, -, -, hnoise⟩, -⟩ := hv
  have hclass := edgeRxHigh_fall s.cfg
    { s.regs with wcnt := ticks g, dcnt := ticks (min d (s.cfg.tNoiseHigh + 1)), st := .rxHigh }
  rw [ticks_toNat _ (by omega), classify_saturated] at hclass
  rw [edges_tick s (g + d) (hr _ (by omega)) (by rw [hhigh]; exact SeqState.noConfusion), hhigh, hlow]
  exact hclass

/-- The receiveBit is busy in every cycle up to the one whose sample ends the pulse. -/
theorem edges_pulse_busy (k : Nat) (hk : k ≤ g + d) : (edges k s).regs.st ≠ .idle := by
  by_cases hwait : k ≤ g
  · have hlow := dinFrom_replicate_of_le s 0 k g false hwait (dinFrom_left (dinFrom_left hdin))
    rw [edges_waiting s hv hst hw k (by omega) (noReset_of_le (by omega) hr) hlow]
    simp [hst]
  · obtain ⟨j, rfl⟩ := Nat.exists_eq_add_of_le (Nat.le_of_not_le hwait)
    rw [edges_pulse hv hst hw hg hd hr hdin j (by omega) (by omega)]
    exact SeqState.noConfusion

end Pulse

/-! ### `RBIT` (41_rbit.md R125, R129) -/

theorem opRbit_ne_opRseq : opRbit ≠ opRseq := by decide

/-- Settles O27: after the acceptance the receiveBit waits (`edges_waiting`) until the last sample of the deadline
delivers the `TIMEOUT` (`edges_waiting_deadline`), which outside an `RSEQ` is a result alone (`deliver_single`). -/
theorem rbitTimesOut : Obligations.RbitTimesOut := by
  intro s hv hst hp hr hdin
  have hedge : (edge s).regs = { s.regs with op := opRbit, wcnt := 0, dcnt := 0, st := .rxWait } :=
    edge_presented_regs s .rbit hst hp
  have hwait : (edge s).regs.st = .rxWait := by rw [hedge]
  have hw : (edge s).regs.wcnt = 0 := by rw [hedge]
  have hop : (edge s).regs.op ≠ opRseq := by rw [hedge]; exact opRbit_ne_opRseq
  have hv' : (edge s).cfg.Valid := by rwa [edge_cfg]
  have hr' := noReset_edge hr
  have hdin' : (edge s).DinFrom 0 _ := dinFrom_edge hdin
  refine ⟨(busyFor_iff _ _).2 fun k hk => ?_, _, stepN_eq_next _ s, ?_⟩
  · rw [edges_waiting (edge s) hv' hwait hw k (by rwa [edge_cfg]) (noReset_of_le hk.le hr')
      (dinFrom_replicate_of_le _ _ _ _ _ hk.le hdin')]
    simp [hwait]
  · rw [← edge_cfg s] at hr' hdin' ⊢
    rw [edges, edges_waiting_deadline (edge s) hv' hwait hw hr' hdin', deliver_single _ _ _ (by exact hop), hedge]
    rfl

/-- Settles O28: the pulse is timed (`edges_pulse`) and its end delivers its class (`edges_pulse_end`), which outside an
`RSEQ` is a result alone (`deliver_single`). -/
theorem rbitMeasuresPulse : Obligations.RbitMeasuresPulse := by
  intro s g d hv hst hp hg hd hr hdin
  have hedge : (edge s).regs = { s.regs with op := opRbit, wcnt := 0, dcnt := 0, st := .rxWait } :=
    edge_presented_regs s .rbit hst hp
  have hwait : (edge s).regs.st = .rxWait := by rw [hedge]
  have hw : (edge s).regs.wcnt = 0 := by rw [hedge]
  have hop : (edge s).regs.op ≠ opRseq := by rw [hedge]; exact opRbit_ne_opRseq
  have hv' : (edge s).cfg.Valid := by rwa [edge_cfg]
  rw [← edge_cfg s] at hg ⊢
  have hr' : (edge s).NoReset (g + d + 1) := noReset_edge hr
  have hdin' : (edge s).DinFrom 0 (bitSamples (g, d)) := dinFrom_edge hdin
  refine ⟨(busyFor_iff _ _).2 fun k hk => edges_pulse_busy hv' hwait hw hg hd hr' hdin' k (by omega), _,
    stepN_eq_next _ s, ?_⟩
  rw [edges, edges_pulse_end hv' hwait hw hg hd hr' hdin', deliver_single _ _ _ (by exact hop), hedge]
  rfl

end Sys2Proof.Proofs
end

section
/-!
PROOFS. The statements about whole streams (42_rseq.md R142, R145, R146): the samples of a stream cut into the
receiveBits that read them, the run of an `RSEQ` over them, and what it leaves in the buffer.
-/

namespace Sys2Proof.Proofs

open Sys2Proof.Machine Sys2Proof.Laws

/-! ### The samples of a stream, receiveBit by receiveBit -/

/-- What the receiveBits of a stream see of its pulses: the first deasserted sample after a pulse ends it, so every wait
but the first is one sample shorter than the gap. -/
def receiveBits : Pulses → Pulses
  | [] => []
  | p :: ps => p :: ps.map fun q => (q.1 - 1, q.2)

theorem pulseSamples_cons (p : Nat × Nat) (ps : Pulses) :
    pulseSamples (p :: ps) = List.replicate p.1 false ++ List.replicate p.2 true ++ pulseSamples ps := rfl

/-- The pulses after the first, each with the sample that ends the pulse before it. -/
theorem pulseSamples_append_false (ps : Pulses) (h : ∀ q ∈ ps, 1 ≤ q.1) :
    pulseSamples ps ++ [false] = false :: (ps.map fun q => (q.1 - 1, q.2)).flatMap bitSamples := by
  induction ps with
  | nil => rfl
  | cons p ps ih =>
    obtain ⟨hp, hps⟩ := List.forall_mem_cons.1 h
    obtain ⟨g, hg⟩ := Nat.exists_eq_add_of_le' hp
    rw [pulseSamples_cons, List.append_assoc, ih hps, hg, List.replicate_succ]
    simp [bitSamples, hg]

theorem pulseSamples_eq_receiveBits (D : Nat) (ps : Pulses) (hne : ps ≠ []) (hwf : WellFormedPulses D ps) :
    pulseSamples ps ++ [false] = (receiveBits ps).flatMap bitSamples := by
  cases ps with
  | nil => exact absurd rfl hne
  | cons p ps =>
    obtain ⟨-, -, hps⟩ := hwf
    rw [pulseSamples_cons, List.append_assoc, pulseSamples_append_false ps fun q hq => (hps q hq).1]
    simp [receiveBits, bitSamples]

/-- A whole stream: its receiveBits, then a silent deadline. -/
theorem streamSamples_eq_receiveBits (D : Nat) (ps : Pulses) (hwf : WellFormedPulses D ps) :
    streamSamples D ps = (receiveBits ps).flatMap bitSamples ++ List.replicate D false := by
  by_cases hne : ps = []
  · subst hne
    rfl
  · rw [← pulseSamples_eq_receiveBits D ps hne hwf, streamSamples, trailer, if_neg hne, List.replicate_succ,
      List.append_cons]

theorem receiveBits_wellFormed (D : Nat) (ps : Pulses) (hwf : WellFormedPulses D ps) :
    ∀ q ∈ receiveBits ps, q.1 + 1 ≤ D ∧ 1 ≤ q.2 := by
  cases ps with
  | nil => nofun
  | cons p ps =>
    obtain ⟨hgap, hwidth, hps⟩ := hwf
    refine List.forall_mem_cons.2 ⟨⟨hgap, hwidth⟩, List.forall_mem_map.2 fun q hq => ?_⟩
    obtain ⟨h1, hD, hq⟩ := hps q hq
    exact ⟨by omega, hq⟩

theorem receiveBits_widths (ps : Pulses) : (receiveBits ps).map Prod.snd = ps.map Prod.snd := by
  cases ps with
  | nil => rfl
  | cons p ps => simp [receiveBits]

/-! ### The run over the pulses -/

/-- In an `RSEQ` the delivery of a pulse does not depend on the counters: it clears both (42_rseq.md R141). -/
theorem deliver_rseq_pulse_counters (c : Config) (r : Regs) (t : Tag) (hop : r.op = opRseq) (ht : t ≠ .timeout)
    (wcnt dcnt : BitVec 32) (st : SeqState) :
    deliver c { r with wcnt := wcnt, dcnt := dcnt, st := st } t = deliver c r t := by
  by_cases hl : r.len.toNat < c.seqDepth - 1
  · rw [deliver_rseq_stored c r t hop ht hl,
      deliver_rseq_stored c { r with wcnt := wcnt, dcnt := dcnt, st := st } t hop ht hl]
  · rw [deliver_rseq_dropped c r t hop ht hl,
      deliver_rseq_dropped c { r with wcnt := wcnt, dcnt := dcnt, st := st } t hop ht hl]

theorem deliver_rseq_pulse_wcnt (c : Config) (r : Regs) (t : Tag) (hop : r.op = opRseq) (ht : t ≠ .timeout) :
    (deliver c r t).wcnt = 0 := by
  by_cases hl : r.len.toNat < c.seqDepth - 1
  · rw [deliver_rseq_stored c r t hop ht hl]
  · rw [deliver_rseq_dropped c r t hop ht hl]

/-- The class of every pulse, in time order. -/
def classes (c : Config) (ps : Pulses) : List Tag := ps.map fun p => classify c p.2

theorem classes_receiveBits (c : Config) (ps : Pulses) : classes c (receiveBits ps) = classes c ps := by
  have h := congrArg (List.map (classify c)) (receiveBits_widths ps)
  rwa [List.map_map, List.map_map] at h

/-- An `RSEQ` that waits receives the pulses one after the other: it stays busy, and its registers are those after the
deliveries of their classes. -/
theorem edges_pulses (qs : Pulses) (s : State) (hv : s.cfg.Valid) (hst : s.regs.st = .rxWait) (hw : s.regs.wcnt = 0)
    (hop : s.regs.op = opRseq) (hqs : ∀ q ∈ qs, q.1 + 1 ≤ s.cfg.deadline ∧ 1 ≤ q.2)
    (hr : s.NoReset (qs.flatMap bitSamples).length) (hdin : s.DinFrom 0 (qs.flatMap bitSamples)) :
    (∀ k, k ≤ (qs.flatMap bitSamples).length → (edges k s).regs.st ≠ .idle) ∧
      (edges (qs.flatMap bitSamples).length s).regs = (classes s.cfg qs).foldl (deliver s.cfg) s.regs := by
  induction qs generalizing s with
  | nil =>
    refine ⟨fun k hk => ?_, rfl⟩
    obtain rfl := Nat.le_zero.1 hk
    simp [edges, hst]
  | cons q qs ih =>
    obtain ⟨⟨hg, hd⟩, hqs⟩ := List.forall_mem_cons.1 hqs
    rw [List.flatMap_cons, List.length_append] at *
    have hfirst : s.NoReset (q.1 + q.2 + 1) := noReset_of_le (by rw [length_bitSamples]; omega) hr
    have hsamples := dinFrom_right hdin
    have hedge := edges_pulse_end hv hst hw hg hd hfirst (dinFrom_left hdin)
    have hbusy := edges_pulse_busy hv hst hw hg hd hfirst (dinFrom_left hdin)
    rw [deliver_rseq_pulse_counters _ _ _ hop (classify_ne_timeout _ _), ← length_bitSamples] at hedge
    have hnext := ih (edges (bitSamples q).length s) (by rwa [edges_cfg])
      (by rw [hedge]; exact deliver_rseq_pulse_st _ _ _ hop (classify_ne_timeout _ _))
      (by rw [hedge]; exact deliver_rseq_pulse_wcnt _ _ _ hop (classify_ne_timeout _ _))
      (by rw [hedge, deliver_op, hop])
      (by rwa [edges_cfg]) (noReset_edges _ _ hr) (dinFrom_edges _ (by rwa [Nat.zero_add] at hsamples))
    obtain ⟨hbusy', hend⟩ := hnext
    refine ⟨fun k hk => ?_, ?_⟩
    · by_cases hin : k ≤ q.1 + q.2
      · exact hbusy k hin
      · obtain ⟨j, rfl⟩ := Nat.exists_eq_add_of_le (show (bitSamples q).length ≤ k by rw [length_bitSamples]; omega)
        rw [edges_add]
        exact hbusy' j (by omega)
    · rw [edges_add, hend, edges_cfg, hedge]
      rfl

/-! ### What the deliveries leave (42_rseq.md R141, R142) -/

/-- The registers of an `RSEQ`, accepted with the registers `r`, after the deliveries of the pulse tags `ts`. -/
structure Assembled (c : Config) (r : Regs) (ts : List Tag) (r' : Regs) : Prop where
  /-- The registers that hold no stream. -/
  regs : r' = { r with
    op := opRseq, wcnt := 0, dcnt := 0, bitres := r'.bitres, seq := r'.seq, len := r'.len, seqClosed := false,
    seqOvf := decide (c.seqDepth - 2 < ts.length), st := .rxWait }
  size : r'.seq.length = c.seqDepth
  len : r'.len.toNat = min ts.length (c.seqDepth - 2) + 1
  kept : r'.seq.take r'.len.toNat = .start :: ts.take (c.seqDepth - 2)
  stale : ∀ i, r'.len.toNat ≤ i → r'.seq[i]? = r.seq[i]?

theorem take_succ_memWrite (m : Memory) (n : Nat) (t : Tag) (h : n < m.length) :
    (memWrite m n t).take (n + 1) = m.take n ++ [t] := by
  rw [List.take_add_one, getElem?_memWrite_same m n t h, memWrite, List.take_set_of_le le_rfl]
  rfl

theorem assembled_nil {c : Config} (hv : c.Valid) {r : Regs} (hsize : r.seq.length = c.seqDepth) :
    Assembled c r [] (acceptedRegs c r .rseq) := by
  obtain ⟨-, -, -, -, -, -, hdepth, -⟩ := hv
  exact {
    regs := rfl
    size := (memWrite_length _ _ _).trans hsize
    len := by simp [acceptedRegs]
    kept := by
      rw [List.take_nil]
      exact take_succ_memWrite r.seq 0 .start (by omega)
    stale := fun i hi => getElem?_memWrite_other _ _ _ _ (Nat.one_le_iff_ne_zero.1 hi) }

/-- One more pulse: it is stored while at most `SEQ_DEPTH - 3` others are. -/
theorem assembled_snoc {c : Config} (hv : c.Valid) {r r' : Regs} {ts : List Tag} (h : Assembled c r ts r') (t : Tag)
    (ht : t ≠ .timeout) : Assembled c r (ts ++ [t]) (deliver c r' t) := by
  have hop : r'.op = opRseq := by rw [h.regs]
  obtain ⟨hregs, hsize, hlen, hkept, hstale⟩ := h
  obtain ⟨-, -, -, -, -, -, hdepth, hdepth'⟩ := hv
  by_cases hl : r'.len.toNat < c.seqDepth - 1
  · have hlen' := toNat_succ_of_lt r'.len (by omega)
    have hcount : ts.length < c.seqDepth - 2 := by omega
    have hovf : decide (c.seqDepth - 2 < ts.length) = decide (c.seqDepth - 2 < (ts ++ [t]).length) := by
      rw [decide_eq_false (by omega), decide_eq_false (by simp; omega)]
    rw [deliver_rseq_stored c r' t hop ht hl]
    exact {
      regs := by
        rw [← hovf]
        exact congrArg (fun q : Regs => { q with
          bitres := t, seq := memWrite r'.seq r'.len.toNat t, len := r'.len + 1, wcnt := 0, dcnt := 0,
          st := .rxWait }) hregs
      size := (memWrite_length _ _ _).trans hsize
      len := by rw [hlen', hlen, List.length_append, List.length_singleton]; omega
      kept := by
        rw [hlen', take_succ_memWrite _ _ _ (by omega), hkept, List.take_of_length_le hcount.le,
          List.take_of_length_le (by simp; omega)]
        rfl
      stale := fun i hi => by
        rw [hlen'] at hi
        rw [getElem?_memWrite_other _ _ _ _ (by omega)]
        exact hstale i (by omega) }
  · have hcount : c.seqDepth - 2 ≤ ts.length := by omega
    have hovf : decide (c.seqDepth - 2 < (ts ++ [t]).length) = true := decide_eq_true (by simp; omega)
    rw [deliver_rseq_dropped c r' t hop ht hl]
    exact {
      regs := by
        rw [hovf]
        exact congrArg (fun q : Regs => { q with
          bitres := t, seqOvf := true, wcnt := 0, dcnt := 0, st := .rxWait }) hregs
      size := hsize
      len := by rw [List.length_append, List.length_singleton]; exact hlen.trans (by omega)
      kept := by rw [List.take_append_of_le_length hcount]; exact hkept
      stale := hstale }

theorem assembled_deliveries {c : Config} (hv : c.Valid) {r : Regs} (hsize : r.seq.length = c.seqDepth) (ts : List Tag)
    (ht : ∀ t ∈ ts, t ≠ .timeout) : Assembled c r ts (ts.foldl (deliver c) (acceptedRegs c r .rseq)) := by
  induction ts using List.reverseRecOn with
  | nil => exact assembled_nil hv hsize
  | append_singleton ts t ih =>
    obtain ⟨hts, ht⟩ := List.forall_mem_append.1 ht
    rw [List.foldl_append]
    exact assembled_snoc hv (ih hts) t (ht t (List.mem_singleton_self t))

/-! ### `RSEQ` over a stream (42_rseq.md R145, R146) -/

section Stream

variable {s : State} {ps : Pulses} (hv : s.cfg.Valid) (hsize : s.regs.seq.length = s.cfg.seqDepth)
  (hst : s.regs.st = .idle) (hp : s.Presents .rseq) (hwf : WellFormedPulses s.cfg.deadline ps)
  (hr : s.NoReset (((receiveBits ps).flatMap bitSamples).length + 1))
  (hdin : s.DinFrom 1 ((receiveBits ps).flatMap bitSamples))
include hv hst hp hwf hr hdin

theorem edges_stream :
    (∀ k, k ≤ ((receiveBits ps).flatMap bitSamples).length → (edges k (edge s)).regs.st ≠ .idle) ∧
      (edges ((receiveBits ps).flatMap bitSamples).length (edge s)).regs =
        (classes s.cfg ps).foldl (deliver s.cfg) (acceptedRegs s.cfg s.regs .rseq) := by
  have hedge := edge_presented_regs s .rseq hst hp
  have hrun := edges_pulses (receiveBits ps) (edge s) (by rwa [edge_cfg]) (by rw [hedge]; rfl) (by rw [hedge]; rfl)
    (by rw [hedge]; rfl) (by rw [edge_cfg]; exact receiveBits_wellFormed _ ps hwf) (noReset_edge hr)
    (dinFrom_edge hdin)
  rwa [classes_receiveBits, edge_cfg, hedge] at hrun

include hsize

/-- After the sample that ends the last pulse the stream is assembled and the next receiveBit waits. -/
theorem edges_stream_assembled :
    Assembled s.cfg s.regs (classes s.cfg ps) (edges ((receiveBits ps).flatMap bitSamples).length (edge s)).regs := by
  rw [(edges_stream hv hst hp hwf hr hdin).2]
  exact assembled_deliveries hv hsize _ (List.forall_mem_map.2 fun p _ => classify_ne_timeout s.cfg p.2)

end Stream

/-- Settles O34: the stream up to the sample that ends the last pulse is one of `edges_stream`, and what it leaves is
`Assembled`, with no terminator. -/
theorem endlessStreamNeverEnds : Obligations.EndlessStreamNeverEnds := by
  intro s ps hv hmem hst hp hne hwf hr hdin
  have hsize : s.regs.seq.length = s.cfg.seqDepth := by simpa [Memory.wf] using hmem
  have hsamples := pulseSamples_eq_receiveBits _ ps hne hwf
  have hlen : (pulseSamples ps).length + 1 = ((receiveBits ps).flatMap bitSamples).length := by
    rw [← hsamples, List.length_append, List.length_singleton]
  rw [hsamples] at hdin
  rw [← Nat.add_assoc _ 1 1, hlen] at hr ⊢
  obtain ⟨hbusy, -⟩ := edges_stream hv hst hp hwf hr hdin
  obtain ⟨hregs, -, hcount, -, -⟩ := edges_stream_assembled hv hsize hst hp hwf hr hdin
  obtain ⟨-, -, -, -, -, -, hdepth, -⟩ := hv
  rw [classes, List.length_map] at hregs hcount
  refine ⟨(busyFor_iff _ _).2 fun k hk => hbusy k (by omega), _, stepN_eq_next _ s, ?_⟩
  rw [edges]
  refine ⟨by rw [hregs], by rw [hregs], by rw [hregs], by omega, by rw [hregs]⟩

/-- The silent deadline after the last pulse: the block stays busy until its last sample closes the stream. -/
theorem edges_trailer (u : State) (hv : u.cfg.Valid) (hst : u.regs.st = .rxWait) (hw : u.regs.wcnt = 0)
    (hop : u.regs.op = opRseq) (hr : u.NoReset u.cfg.deadline)
    (hdin : u.DinFrom 0 (List.replicate u.cfg.deadline false)) :
    (∀ k, k < u.cfg.deadline → (edges k u).regs.st ≠ .idle) ∧
      (edges u.cfg.deadline u).regs =
        { u.regs with
          wcnt := ticks u.cfg.deadline, bitres := .timeout, seq := memWrite u.regs.seq u.regs.len.toNat .timeout,
          len := u.regs.len + 1, seqClosed := true, st := .idle } := by
  refine ⟨fun k hk => ?_, ?_⟩
  · rw [edges_waiting u hv hst hw k hk (noReset_of_le hk.le hr) (dinFrom_replicate_of_le _ _ _ _ _ hk.le hdin)]
    simp [hst]
  · rw [edges_waiting_deadline u hv hst hw hr hdin,
      deliver_rseq_timeout u.cfg { u.regs with wcnt := ticks u.cfg.deadline } hop]

/-- Settles O33: the pulses assemble the stream (`edges_stream_assembled`), and the silent deadline after them adds the
terminator (`edges_trailer`). -/
theorem rseqAssemblesStream : Obligations.RseqAssemblesStream := by
  intro s ps hv hmem hst hp hwf hr hdin
  have hsize : s.regs.seq.length = s.cfg.seqDepth := by simpa [Memory.wf] using hmem
  rw [streamSamples_eq_receiveBits _ ps hwf] at hr hdin ⊢
  rw [List.length_append, List.length_replicate] at hr ⊢
  have hr' := noReset_of_le (m := ((receiveBits ps).flatMap bitSamples).length + 1) (by omega) hr
  have hdin' := dinFrom_left hdin
  have hassembled := edges_stream_assembled hv hsize hst hp hwf hr' hdin'
  obtain ⟨hbusy, -⟩ := edges_stream hv hst hp hwf hr' hdin'
  have hsilent := dinFrom_right hdin
  generalize ((receiveBits ps).flatMap bitSamples).length = n at *
  have hcfg : (edges n (edge s)).cfg = s.cfg := by rw [edges_cfg, edge_cfg]
  obtain ⟨hregs, hsize', hlen, hkept, hstale⟩ := hassembled
  obtain ⟨hbusy', hend⟩ := edges_trailer (edges n (edge s)) (by rwa [hcfg]) (by rw [hregs]) (by rw [hregs])
    (by rw [hregs]) (by rw [hcfg]; exact noReset_edges n _ (noReset_edge (noReset_of_le (by omega) hr)))
    (by rw [hcfg]; exact dinFrom_edges n (dinFrom_edge (by rwa [Nat.add_comm] at hsilent)))
  rw [hcfg] at hbusy' hend
  have hrun : edges (n + s.cfg.deadline + 1) s = edges s.cfg.deadline (edges n (edge s)) := edges_add n _ (edge s)
  refine ⟨(busyFor_iff _ _).2 fun k hk => ?_, _, stepN_eq_next _ s, ?_⟩
  · by_cases hin : k ≤ n
    · exact hbusy k hin
    · obtain ⟨j, rfl⟩ := Nat.exists_eq_add_of_le (Nat.le_of_not_le hin)
      rw [edges_add]
      exact hbusy' j (by omega)
  · obtain ⟨-, -, -, -, -, -, hdepth, hdepth'⟩ := hv
    rw [classes, List.length_map] at hregs hlen
    have hlen' := toNat_succ_of_lt (edges n (edge s)).regs.len (by omega)
    simp only [hrun, hend, hlen']
    refine ⟨?_, by omega, fun i hi => ?_, ?_⟩
    · rw [take_succ_memWrite _ _ _ (by omega), hkept]
      rfl
    · rw [getElem?_memWrite_other _ _ _ _ (by omega)]
      exact hstale i (by omega)
    · exact congrArg (fun q : Regs => { q with
        wcnt := ticks s.cfg.deadline, bitres := .timeout,
        seq := memWrite (edges n (edge s)).regs.seq (edges n (edge s)).regs.len.toNat .timeout,
        len := (edges n (edge s)).regs.len + 1, seqClosed := true, st := .idle }) hregs

end Sys2Proof.Proofs
end
